-- ==== Sys2Proof/Word.lean ====
section
/-! DEFINITION. The word types of the core: bytes, 16-bit words, 12-bit addresses, register numbers and
sprite heights (00_scope.md R4, R5; 30_encoding.md R61). -/

namespace Sys2Proof

/-- An 8-bit value: a register V, a timer, a memory cell, an immediate NN. -/
abbrev Byte := BitVec 8

/-- A 16-bit value: PC, I, a stack entry, an instruction word, a fault address. -/
abbrev Word := BitVec 16

/-- The 12-bit immediate NNN (R61, R63). -/
abbrev Addr12 := BitVec 12

/-- A register number 0 to 15, the value of a field X or Y (R61: every value is legal, R63). -/
abbrev Reg := Fin 16

/-- The 4-bit count N of DXYN, 0 to 15 (R63). -/
abbrev Count4 := Fin 16

/-- VF, the register that is also the only flag (10_state.md R12). -/
abbrev regVF : Reg := 15

/-- V0, the register BNNN adds by fixed position (41_flow.md R107). -/
abbrev regV0 : Reg := 0

end Sys2Proof
end

