-- ==== Sys2Proof/Config.lean ====
section
/-! DEFINITION. The parameters of 00_scope.md R4 and the free values: the inputs of a step that nobody has
fixed (40_cycle.md R80, R217). A free value has no body, so no proof can see what it is. -/

namespace Sys2Proof.Config

/-- MEM_SIZE: addresses 0x000 to 0xFFF (R4, 20_memory.md R40). -/
abbrev memSize : Nat := 0x1000

/-- FONT_BASE, where reset puts FONTSET and what FX29 adds to (R4, 43_index_memory.md R142). -/
abbrev fontBase : Nat := 0x050

/-- FONT_SIZE: 16 glyphs of 5 bytes (R4). -/
abbrev fontSize : Nat := 80

/-- PROG_BASE, where reset puts PROGRAM; also RESET_PC (R4, 70_reset_and_hazards.md R231). -/
abbrev progBase : Nat := 0x200

/-- PROG_MAX, the longest PROGRAM (R4, 70_reset_and_hazards.md R232). -/
abbrev progMax : Nat := 3584

/-- FB_WIDTH (R4). -/
abbrev fbWidth : Nat := 64

/-- FB_HEIGHT (R4). -/
abbrev fbHeight : Nat := 32

/-- FREE VALUE. The key levels of step number `n` when the environment has fixed none: any of the 2^16
vectors (40_cycle.md R80: "any of the 2^16 key vectors"); log entry 1. -/
opaque freeKeys : Nat → BitVec 16

/-- FREE VALUE. The `timer_tick` of step number `n` when the environment has fixed none (R80, R213; U8 of
93_implementation_defined.md); log entry 1. -/
opaque freeTick : Nat → Bool

/-- FREE VALUE. The `rand` byte of step number `n` when the environment has fixed none (R80, R132, R217;
"a draw under no law"); log entry 1. -/
opaque freeRand : Nat → Byte

end Sys2Proof.Config
end

