-- ==== Sys2Proof/Syntax.lean ====
section
/-! DEFINITION. The 34 instructions of 30_encoding.md R65, one constructor per row of
spec/opcode_table.json, with the operands their format has (R62). Names follow the spec's decode
function (R64). -/

namespace Sys2Proof

inductive Instr where
  /-- 00E0 (R161). -/
  | cls
  /-- 00EE (R100). -/
  | ret
  /-- 1NNN (R101). -/
  | jp (nnn : Addr12)
  /-- 2NNN (R102). -/
  | call (nnn : Addr12)
  /-- 3XNN (R103). -/
  | seImm (x : Reg) (nn : Byte)
  /-- 4XNN (R104). -/
  | sneImm (x : Reg) (nn : Byte)
  /-- 5XY0 (R105). -/
  | seReg (x y : Reg)
  /-- 6XNN (R121). -/
  | ldImm (x : Reg) (nn : Byte)
  /-- 7XNN (R122). -/
  | addImm (x : Reg) (nn : Byte)
  /-- 8XY0 (R123). -/
  | ldReg (x y : Reg)
  /-- 8XY1 (R124). -/
  | or (x y : Reg)
  /-- 8XY2 (R125). -/
  | and (x y : Reg)
  /-- 8XY3 (R126). -/
  | xor (x y : Reg)
  /-- 8XY4 (R127). -/
  | addReg (x y : Reg)
  /-- 8XY5 (R128). -/
  | sub (x y : Reg)
  /-- 8XY6 (R129). R63: "all 16 values" of its Y field "decode to the same instruction". -/
  | shr (x : Reg)
  /-- 8XY7 (R130). -/
  | subn (x y : Reg)
  /-- 8XYE (R131). Its Y field is ignored as that of 8XY6 (R63). -/
  | shl (x : Reg)
  /-- 9XY0 (R106). -/
  | sneReg (x y : Reg)
  /-- ANNN (R140). -/
  | ldI (nnn : Addr12)
  /-- BNNN (R107). -/
  | jpV0 (nnn : Addr12)
  /-- CXNN (R132). -/
  | rnd (x : Reg) (nn : Byte)
  /-- DXYN (R162). -/
  | drw (x y : Reg) (n : Count4)
  /-- EX9E (R180). -/
  | skp (x : Reg)
  /-- EXA1 (R181). -/
  | sknp (x : Reg)
  /-- FX07 (R183). -/
  | ldFromDt (x : Reg)
  /-- FX0A (R182). -/
  | ldKey (x : Reg)
  /-- FX15 (R184). -/
  | ldDt (x : Reg)
  /-- FX18 (R185). -/
  | ldSt (x : Reg)
  /-- FX1E (R141). -/
  | addI (x : Reg)
  /-- FX29 (R142). -/
  | ldFont (x : Reg)
  /-- FX33 (R143). -/
  | bcd (x : Reg)
  /-- FX55 (R144). -/
  | store (x : Reg)
  /-- FX65 (R145). -/
  | load (x : Reg)
  deriving DecidableEq, Repr

/-- The document's name of the instruction, its hex pattern (30_encoding.md R70: "The hex pattern is
therefore the canonical name of each instruction in this spec"). -/
def Instr.pattern : Instr → String
  | .cls => "00E0"
  | .ret => "00EE"
  | .jp _ => "1NNN"
  | .call _ => "2NNN"
  | .seImm _ _ => "3XNN"
  | .sneImm _ _ => "4XNN"
  | .seReg _ _ => "5XY0"
  | .ldImm _ _ => "6XNN"
  | .addImm _ _ => "7XNN"
  | .ldReg _ _ => "8XY0"
  | .or _ _ => "8XY1"
  | .and _ _ => "8XY2"
  | .xor _ _ => "8XY3"
  | .addReg _ _ => "8XY4"
  | .sub _ _ => "8XY5"
  | .shr _ => "8XY6"
  | .subn _ _ => "8XY7"
  | .shl _ => "8XYE"
  | .sneReg _ _ => "9XY0"
  | .ldI _ => "ANNN"
  | .jpV0 _ => "BNNN"
  | .rnd _ _ => "CXNN"
  | .drw _ _ _ => "DXYN"
  | .skp _ => "EX9E"
  | .sknp _ => "EXA1"
  | .ldFromDt _ => "FX07"
  | .ldKey _ => "FX0A"
  | .ldDt _ => "FX15"
  | .ldSt _ => "FX18"
  | .addI _ => "FX1E"
  | .ldFont _ => "FX29"
  | .bcd _ => "FX33"
  | .store _ => "FX55"
  | .load _ => "FX65"

end Sys2Proof
end

