-- ==== Sys2Proof/WellFormed.lean ====
section
/-! DEFINITION. What a well-formed term is. The operand types already hold exactly the values a field of
the encoding admits (30_encoding.md R63: every value 0 to 15 of X and Y is legal), so the check on an
instruction restates the field widths of R61 on its operands; the check on a PROGRAM is R232's. -/

namespace Sys2Proof

/-- The value fits a field of `width` bits. -/
def fieldFits (value width : Nat) : Bool := decide (value < 2 ^ width)

/-- The operands of an instruction with the widths of their fields (R61): X, Y and N 4 bits, NN 8 bits,
NNN 12 bits. -/
def Instr.operands : Instr → List (Nat × Nat)
  | .cls | .ret => []
  | .jp nnn | .call nnn | .ldI nnn | .jpV0 nnn => [(nnn.toNat, 12)]
  | .seImm x nn | .sneImm x nn | .ldImm x nn | .addImm x nn | .rnd x nn => [(x.val, 4), (nn.toNat, 8)]
  | .seReg x y | .ldReg x y | .or x y | .and x y | .xor x y | .addReg x y | .sub x y | .subn x y
  | .sneReg x y => [(x.val, 4), (y.val, 4)]
  | .drw x y n => [(x.val, 4), (y.val, 4), (n.val, 4)]
  | .shr x | .shl x | .skp x | .sknp x | .ldFromDt x | .ldKey x | .ldDt x | .ldSt x | .addI x
  | .ldFont x | .bcd x | .store x | .load x => [(x.val, 4)]

/-- Every operand fits its field. -/
def Instr.wf (i : Instr) : Bool := i.operands.all fun o => fieldFits o.1 o.2

/-- R232: "`length(PROGRAM) <= 3584` is a precondition of reset". -/
def programFits (program : List Byte) : Bool := decide (program.length ≤ Config.progMax)

end Sys2Proof
end

