-- ==== Sys2Proof/Decode.lean ====
section
/-! DEFINITION. The decoder of 30_encoding.md R64, total on words and on byte strings, then the encoder from
the same encodings (R61, R62, R65), and the opcode map of R65 as rows. -/

namespace Sys2Proof

/-! ### Fields (R61) -/

/-- OP = instr[15:12]. -/
def opField (w : Word) : BitVec 4 := w.extractLsb' 12 4

/-- X = instr[11:8]. -/
def xField (w : Word) : Reg := (w.extractLsb' 8 4).toFin

/-- Y = instr[7:4]. -/
def yField (w : Word) : Reg := (w.extractLsb' 4 4).toFin

/-- N = instr[3:0]. -/
def nField (w : Word) : Count4 := (w.extractLsb' 0 4).toFin

/-- NN = instr[7:0]. -/
def nnField (w : Word) : Byte := w.extractLsb' 0 8

/-- NNN = instr[11:0]. -/
def nnnField (w : Word) : Addr12 := w.extractLsb' 0 12

/-! ### Decoding (R64) -/

/-- The verdict on one word: one of the 34 instructions, or Unknown (R64, R67). -/
inductive Decoded where
  | instr (i : Instr)
  | unknown
  deriving DecidableEq, Repr

/-- The instruction of a verdict, none for Unknown. -/
def Decoded.toOption : Decoded → Option Instr
  | .instr i => some i
  | .unknown => none

/-- Family 0 of R64: 00E0, 00EE, all else Unknown (R66). -/
def decodeFamily0 (w : Word) : Decoded :=
  if w = 0x00E0#16 then .instr .cls
  else if w = 0x00EE#16 then .instr .ret
  else .unknown

/-- Family 8 of R64, by N; 8XY6 and 8XYE drop the ignored Y (R63). -/
def decodeFamily8 (w : Word) : Decoded :=
  match (nField w).val with
  | 0x0 => .instr (.ldReg (xField w) (yField w))
  | 0x1 => .instr (.or (xField w) (yField w))
  | 0x2 => .instr (.and (xField w) (yField w))
  | 0x3 => .instr (.xor (xField w) (yField w))
  | 0x4 => .instr (.addReg (xField w) (yField w))
  | 0x5 => .instr (.sub (xField w) (yField w))
  | 0x6 => .instr (.shr (xField w))
  | 0x7 => .instr (.subn (xField w) (yField w))
  | 0xE => .instr (.shl (xField w))
  | _ => .unknown

/-- Family E of R64, by NN. -/
def decodeFamilyE (w : Word) : Decoded :=
  if nnField w = 0x9E#8 then .instr (.skp (xField w))
  else if nnField w = 0xA1#8 then .instr (.sknp (xField w))
  else .unknown

/-- Family F of R64, by NN. -/
def decodeFamilyF (w : Word) : Decoded :=
  if nnField w = 0x07#8 then .instr (.ldFromDt (xField w))
  else if nnField w = 0x0A#8 then .instr (.ldKey (xField w))
  else if nnField w = 0x15#8 then .instr (.ldDt (xField w))
  else if nnField w = 0x18#8 then .instr (.ldSt (xField w))
  else if nnField w = 0x1E#8 then .instr (.addI (xField w))
  else if nnField w = 0x29#8 then .instr (.ldFont (xField w))
  else if nnField w = 0x33#8 then .instr (.bcd (xField w))
  else if nnField w = 0x55#8 then .instr (.store (xField w))
  else if nnField w = 0x65#8 then .instr (.load (xField w))
  else .unknown

/-- `decode(instr)` of R64. The last arm is family 0xF: OP has no other value. -/
def decode (w : Word) : Decoded :=
  match (opField w).toNat with
  | 0x0 => decodeFamily0 w
  | 0x1 => .instr (.jp (nnnField w))
  | 0x2 => .instr (.call (nnnField w))
  | 0x3 => .instr (.seImm (xField w) (nnField w))
  | 0x4 => .instr (.sneImm (xField w) (nnField w))
  | 0x5 => if nField w = 0 then .instr (.seReg (xField w) (yField w)) else .unknown
  | 0x6 => .instr (.ldImm (xField w) (nnField w))
  | 0x7 => .instr (.addImm (xField w) (nnField w))
  | 0x8 => decodeFamily8 w
  | 0x9 => if nField w = 0 then .instr (.sneReg (xField w) (yField w)) else .unknown
  | 0xA => .instr (.ldI (nnnField w))
  | 0xB => .instr (.jpV0 (nnnField w))
  | 0xC => .instr (.rnd (xField w) (nnField w))
  | 0xD => .instr (.drw (xField w) (yField w) (nField w))
  | 0xE => decodeFamilyE w
  | _ => decodeFamilyF w

/-- The big-endian word of two consecutive bytes, the lower address first (20_memory.md R42). -/
def wordOfBytes (b0 b1 : Byte) : Word := b0 ++ b1

/-- The two bytes of a word in memory order (R42). -/
def bytesOfWord (w : Word) : List Byte := [w.extractLsb' 8 8, w.extractLsb' 0 8]

/-- The verdict on a byte string. -/
inductive DecodedBytes where
  /-- An instruction, and the bytes after its two. -/
  | instr (i : Instr) (rest : List Byte)
  /-- The first word is Unknown. -/
  | unknown (w : Word)
  /-- Fewer than two bytes: no word to decode (R60: every instruction is exactly 2 bytes). -/
  | truncated
  deriving DecidableEq, Repr

/-- Decode the first instruction of a byte string. -/
def decodeBytes : List Byte → DecodedBytes
  | b0 :: b1 :: rest =>
    match decode (wordOfBytes b0 b1) with
    | .instr i => .instr i rest
    | .unknown => .unknown (wordOfBytes b0 b1)
  | _ => .truncated

/-- The word of a row of opcode_table.json: `nbits` bits of `w` numbered as the table numbers them, the
bits above them 0; the core's instructions are one 16-bit word (R60), numbered 15 down to 0 (R5). -/
def tableWord (nbits w : Nat) : Word := BitVec.ofNat 16 (w % 2 ^ nbits)

/-- What the decoder reads from that word, laid out as the two bytes the hardware stores. -/
def decodeTableWord (nbits w : Nat) : Option Instr :=
  match decodeBytes (bytesOfWord (tableWord nbits w)) with
  | .instr i _ => some i
  | .unknown _ => none
  | .truncated => none

/-! ### Encoding (R61, R62, R65)

The words as the rules of 41_flow.md to 45_keys_timers.md write them: the row's `match`, or-ed with the
operands shifted to their fields. -/

/-- `base | NNN`, format A. -/
def wordNNN (base : Word) (nnn : Addr12) : Word := base ||| nnn.setWidth 16

/-- `base | X<<8`, format RS. -/
def wordX (base : Word) (x : Reg) : Word := base ||| (BitVec.ofNat 16 x.val <<< 8)

/-- `base | X<<8 | NN`, format RI. -/
def wordXNN (base : Word) (x : Reg) (nn : Byte) : Word := wordX base x ||| nn.setWidth 16

/-- `base | X<<8 | Y<<4`, format RR. -/
def wordXY (base : Word) (x y : Reg) : Word := wordX base x ||| (BitVec.ofNat 16 y.val <<< 4)

/-- `base | X<<8 | Y<<4 | N`, format D. -/
def wordXYN (base : Word) (x y : Reg) (n : Count4) : Word := wordXY base x y ||| BitVec.ofNat 16 n.val

/-- The word of an instruction. For 8XY6 and 8XYE, whose Y field is ignored, Y is written as 0 (log
entry 12). -/
def encode : Instr → Word
  | .cls => 0x00E0
  | .ret => 0x00EE
  | .jp nnn => wordNNN 0x1000 nnn
  | .call nnn => wordNNN 0x2000 nnn
  | .seImm x nn => wordXNN 0x3000 x nn
  | .sneImm x nn => wordXNN 0x4000 x nn
  | .seReg x y => wordXY 0x5000 x y
  | .ldImm x nn => wordXNN 0x6000 x nn
  | .addImm x nn => wordXNN 0x7000 x nn
  | .ldReg x y => wordXY 0x8000 x y
  | .or x y => wordXY 0x8001 x y
  | .and x y => wordXY 0x8002 x y
  | .xor x y => wordXY 0x8003 x y
  | .addReg x y => wordXY 0x8004 x y
  | .sub x y => wordXY 0x8005 x y
  | .shr x => wordX 0x8006 x
  | .subn x y => wordXY 0x8007 x y
  | .shl x => wordX 0x800E x
  | .sneReg x y => wordXY 0x9000 x y
  | .ldI nnn => wordNNN 0xA000 nnn
  | .jpV0 nnn => wordNNN 0xB000 nnn
  | .rnd x nn => wordXNN 0xC000 x nn
  | .drw x y n => wordXYN 0xD000 x y n
  | .skp x => wordX 0xE09E x
  | .sknp x => wordX 0xE0A1 x
  | .ldFromDt x => wordX 0xF007 x
  | .ldKey x => wordX 0xF00A x
  | .ldDt x => wordX 0xF015 x
  | .ldSt x => wordX 0xF018 x
  | .addI x => wordX 0xF01E x
  | .ldFont x => wordX 0xF029 x
  | .bcd x => wordX 0xF033 x
  | .store x => wordX 0xF055 x
  | .load x => wordX 0xF065 x

/-! ### The opcode map (R65) -/

/-- One row of R65: `instr & mask = value` selects the instruction named by `pattern`. -/
structure OpcodeRow where
  pattern : String
  mask : Word
  value : Word
  deriving DecidableEq, Repr

/-- The row selects the word. -/
def OpcodeRow.selects (r : OpcodeRow) (w : Word) : Bool := decide (w &&& r.mask = r.value)

/-- Two rows that no word can match together: on the bits both masks fix, the values differ. -/
def OpcodeRow.disjoint (r q : OpcodeRow) : Bool :=
  decide (r.value &&& (r.mask &&& q.mask) ≠ q.value &&& (r.mask &&& q.mask))

/-- Rows 1 to 9 of R65. -/
def opcodeRows1 : List OpcodeRow :=
  [⟨"00E0", 0xFFFF, 0x00E0⟩, ⟨"00EE", 0xFFFF, 0x00EE⟩, ⟨"1NNN", 0xF000, 0x1000⟩,
   ⟨"2NNN", 0xF000, 0x2000⟩, ⟨"3XNN", 0xF000, 0x3000⟩, ⟨"4XNN", 0xF000, 0x4000⟩,
   ⟨"5XY0", 0xF00F, 0x5000⟩, ⟨"6XNN", 0xF000, 0x6000⟩, ⟨"7XNN", 0xF000, 0x7000⟩]

/-- Rows 10 to 23 of R65. -/
def opcodeRows2 : List OpcodeRow :=
  [⟨"8XY0", 0xF00F, 0x8000⟩, ⟨"8XY1", 0xF00F, 0x8001⟩, ⟨"8XY2", 0xF00F, 0x8002⟩,
   ⟨"8XY3", 0xF00F, 0x8003⟩, ⟨"8XY4", 0xF00F, 0x8004⟩, ⟨"8XY5", 0xF00F, 0x8005⟩,
   ⟨"8XY6", 0xF00F, 0x8006⟩, ⟨"8XY7", 0xF00F, 0x8007⟩, ⟨"8XYE", 0xF00F, 0x800E⟩,
   ⟨"9XY0", 0xF00F, 0x9000⟩, ⟨"ANNN", 0xF000, 0xA000⟩, ⟨"BNNN", 0xF000, 0xB000⟩,
   ⟨"CXNN", 0xF000, 0xC000⟩, ⟨"DXYN", 0xF000, 0xD000⟩]

/-- Rows 24 to 34 of R65. -/
def opcodeRows3 : List OpcodeRow :=
  [⟨"EX9E", 0xF0FF, 0xE09E⟩, ⟨"EXA1", 0xF0FF, 0xE0A1⟩, ⟨"FX07", 0xF0FF, 0xF007⟩,
   ⟨"FX0A", 0xF0FF, 0xF00A⟩, ⟨"FX15", 0xF0FF, 0xF015⟩, ⟨"FX18", 0xF0FF, 0xF018⟩,
   ⟨"FX1E", 0xF0FF, 0xF01E⟩, ⟨"FX29", 0xF0FF, 0xF029⟩, ⟨"FX33", 0xF0FF, 0xF033⟩,
   ⟨"FX55", 0xF0FF, 0xF055⟩, ⟨"FX65", 0xF0FF, 0xF065⟩]

/-- The 34 rows of R65, in the table's order. -/
def opcodeRows : List OpcodeRow := opcodeRows1 ++ opcodeRows2 ++ opcodeRows3

end Sys2Proof
end

