-- ==== Sys2Proof/Machine/State.lean ====
section
/-! DEFINITION. The state of the core (`CoreState`, 10_state.md R10), its fault record (R23), the inputs of a
step (40_cycle.md R80), the state `step` works on (`State`: the two together), the reasons a step can stop, and the state after reset (R27, R28). -/

namespace Sys2Proof.Machine

/-- STATUS (10_state.md R22): 0 = Running, 1 = RunningDraw (R32). -/
inductive Status where
  | running
  | runningDraw
  deriving DecidableEq, Repr

/-- The cause held in FAULT.cause (60_exceptions.md R202). -/
inductive FaultCause where
  /-- Code 0: the core runs. -/
  | none
  /-- Code 1: the fetched word is no instruction. -/
  | unknownOpcode
  /-- Code 2: an access range reaches above 0xFFF. -/
  | addressOutOfRange
  /-- Code 3: 2NNN with 16 entries in use. -/
  | stackOverflow
  /-- Code 4: 00EE with no entry in use. -/
  | stackUnderflow
  /-- Code 5: EX9E or EXA1 with V[X] of 16 or more. -/
  | keyIndexOutOfRange
  deriving DecidableEq, Repr

/-- FAULT (10_state.md R23, 60_exceptions.md R203). -/
structure FaultRecord where
  cause : FaultCause
  /-- The address of the instruction that faulted. -/
  pc : Word
  /-- The instruction word, 0x0000 when the fetch itself faulted. -/
  instr : Word
  /-- R201's address: the lowest out-of-range byte, the key index, or 0. -/
  addr : Word
  deriving DecidableEq, Repr

/-- The three inputs of one step (40_cycle.md R80). -/
structure StepInput where
  /-- Bit `k` is `keys[k]`: 1 = Pressed. -/
  keys : BitVec 16
  /-- `timer_tick`. -/
  tick : Bool
  /-- `rand`, the byte CXNN gets. -/
  rand : Byte
  deriving DecidableEq, Repr

/-- THE MODEL'S OWN FIELD, not the spec's (10_state.md R25: inputs are not state): where the inputs of the
next steps come from, as plain data (log entry 1). -/
structure Environment where
  /-- The inputs the environment has already fixed, oldest first. -/
  pending : List StepInput
  /-- The number of steps requested so far, the argument of the free values. -/
  count : Nat
  deriving DecidableEq, Repr

/-- MEM as cells in canonical form (`Memory.wf`); an unlisted address reads as `resetByte` says. -/
abbrev Memory := List Host.Cell

/-- FB: 32 rows of 64 pixels; bit `x` of row `y` is FB[y][x], 1 = On (10_state.md R21). -/
abbrev Framebuffer := Vector (BitVec 64) 32

/-- THE COMPLETE STATE OF THE CORE: exactly the eleven components of R10, in its order, and no others. -/
structure CoreState where
  /-- MEM (R24). -/
  mem : Memory
  /-- V0 to VF (R11, R12). -/
  v : Vector Byte 16
  /-- PC (R14). -/
  pc : Word
  /-- I (R16). -/
  i : Word
  /-- STACK (R18). -/
  stack : Vector Word 16
  /-- SP, the number of entries in use, 0 to 16 (R17, R32). -/
  sp : Fin 17
  /-- DT, the delay timer (R19). -/
  dt : Byte
  /-- ST, the sound timer (R20). -/
  st : Byte
  /-- FB (R21). -/
  fb : Framebuffer
  /-- STATUS (R22). -/
  status : Status
  /-- FAULT (R23). -/
  fault : FaultRecord
  deriving DecidableEq, Repr

/-- What `step` works on: the core's state beside the inputs of the steps to come. The inputs are not state of
the core (R25), but `step` has no other argument they could come in by (log entry 1). The next core state
depends on the core state and the step's three inputs alone:
`Obligations.StepIsAFunctionOfCoreStateAndInputs`. -/
structure State extends CoreState where
  /-- The inputs of the steps to come. -/
  env : Environment
  deriving DecidableEq, Repr

/-- The reasons a step can stop the machine with a fault: NONE. Every exceptional event of the spec is a
state transition that writes the FAULT latch (60_exceptions.md R204) and every later step of a halted core
is a step that changes nothing (40_cycle.md R82), so each is a next state (log entry 5). -/
inductive Fault where
  deriving DecidableEq, Repr

/-- The reasons for a refusal. -/
inductive Refusal where
  /-- Raised only by an arm of `exec` whose instruction has no meaning yet (no arm is left so). Safe: the
  model says nothing of such a step. -/
  | notModelled (mnemonic : String)
  /-- Raised by the environment's reset-with-load, never by a step: PROGRAM is longer than 3584 bytes
  (70_reset_and_hazards.md R232: "A PROGRAM longer than 3584 bytes is refused"). Safe. -/
  | programTooLarge
  deriving DecidableEq, Repr

/-- FAULT with no fault: cause None and the other fields 0 (R23). -/
def FaultRecord.clear : FaultRecord := { cause := .none, pc := 0, instr := 0, addr := 0 }

/-- The state right after reset with an empty PROGRAM and the default FONTSET (10_state.md R27, R28);
`State.resetWith` is reset with any FONTSET and PROGRAM. -/
def State.reset : State where
  mem := []
  v := Vector.replicate 16 0
  pc := 0x0200
  i := 0
  stack := Vector.replicate 16 0
  sp := 0
  dt := 0
  st := 0
  fb := Vector.replicate 32 0
  status := .running
  fault := FaultRecord.clear
  env := { pending := [], count := 0 }

end Sys2Proof.Machine
end

