-- ==== Sys2Proof/Machine/Memory.lean ====
section
/-! DEFINITION. MEM: the reset image, the canonical form, the byte read and write of 00_scope.md R6, the
wider accesses built from them, and the range check of 20_memory.md R44. -/

namespace Sys2Proof.Machine

/-- Glyphs 0 to 7 of the default FONTSET (10_state.md R29). PRESUMED: the spec marks the values "from
general knowledge, not in source"; log entry 3. -/
def fontGlyphs0 : List Byte :=
  [0xF0, 0x90, 0x90, 0x90, 0xF0] ++ [0x20, 0x60, 0x20, 0x20, 0x70] ++
  [0xF0, 0x10, 0xF0, 0x80, 0xF0] ++ [0xF0, 0x10, 0xF0, 0x10, 0xF0] ++
  [0x90, 0x90, 0xF0, 0x10, 0x10] ++ [0xF0, 0x80, 0xF0, 0x10, 0xF0] ++
  [0xF0, 0x80, 0xF0, 0x90, 0xF0] ++ [0xF0, 0x10, 0x20, 0x40, 0x40]

/-- Glyphs 8 to F of the default FONTSET (R29). PRESUMED, log entry 3. -/
def fontGlyphs8 : List Byte :=
  [0xF0, 0x90, 0xF0, 0x90, 0xF0] ++ [0xF0, 0x90, 0xF0, 0x10, 0xF0] ++
  [0xF0, 0x90, 0xF0, 0x90, 0x90] ++ [0xE0, 0x90, 0xE0, 0x90, 0xE0] ++
  [0xF0, 0x80, 0x80, 0x80, 0xF0] ++ [0xE0, 0x90, 0x90, 0x90, 0xE0] ++
  [0xF0, 0x80, 0xF0, 0x80, 0xF0] ++ [0xF0, 0x80, 0xF0, 0x80, 0x80]

/-- The 80 bytes of the default FONTSET (R29). -/
def defaultFontset : List Byte := fontGlyphs0 ++ fontGlyphs8

/-- What an address with no entry reads as: the reset image of R28 with an empty PROGRAM and the default
FONTSET, so 0x00 outside 0x050 to 0x09F (log entry 4). -/
def resetByte (a : Nat) : Byte :=
  if Config.fontBase ≤ a ∧ a < Config.fontBase + Config.fontSize then
    defaultFontset.getD (a - Config.fontBase) 0
  else 0

namespace Memory

/-- The canonical form from address `lo` on: addresses rise strictly, exist (20_memory.md R40), and no
entry says what an unlisted address reads as anyway. -/
def wfFrom : Nat → Memory → Bool
  | _, [] => true
  | lo, (a, b) :: m => decide (lo ≤ a) && decide (a < Config.memSize) && decide (b ≠ resetByte a) && wfFrom (a + 1) m

/-- The canonical form, so that equal memories are equal lists. -/
def wf (m : Memory) : Bool := wfFrom 0 m

/-- `MemRead(a, 1)` (R6). The range is checked before by `rangeAdmitted`. -/
def read : Memory → Nat → Byte
  | [], a => resetByte a
  | (b, c) :: m, a => if a = b then c else read m a

/-- Put a cell in front, unless it says what the address reads as without it. -/
def cons (a : Nat) (b : Byte) (m : Memory) : Memory := if b = resetByte a then m else (a, b) :: m

/-- `MemWrite(a, 1, b)` (R6), keeping the canonical form. The range is checked before. -/
def write : Memory → Nat → Byte → Memory
  | [], a, b => cons a b []
  | (a', b') :: m, a, b =>
    if a < a' then cons a b ((a', b') :: m)
    else if a = a' then cons a b m
    else (a', b') :: write m a b

/-- The bytes at `a`, `a + 1`, … , `n` of them, lowest address first. -/
def readBytes (m : Memory) (a : Nat) : Nat → List Byte
  | 0 => []
  | n + 1 => read m a :: readBytes m (a + 1) n

/-- Write the bytes at `a`, `a + 1`, … , lowest address first. -/
def writeBytes (m : Memory) (a : Nat) : List Byte → Memory
  | [] => m
  | b :: bs => writeBytes (write m a b) (a + 1) bs

/-- `MemRead(a, 2)`: big-endian, used only by fetch (R6, 20_memory.md R42). -/
def readWord (m : Memory) (a : Nat) : Word := wordOfBytes (read m a) (read m (a + 1))

/-- The memory image of R28: FONTSET at 0x050, PROGRAM at 0x200, 0x00 elsewhere. -/
def loadImage (fontset : Vector Byte 80) (program : List Byte) : Memory :=
  writeBytes (writeBytes [] Config.fontBase fontset.toList) Config.progBase program

end Memory

/-- R44: the range of `n` bytes at `a` is admitted; in exact arithmetic, no wrap. An access of no bytes is
always admitted. -/
def rangeAdmitted (a n : Nat) : Bool := decide (n = 0 ∨ a + n - 1 ≤ 0xFFF)

/-- R44: `max(a, 0x1000)`, the lowest address of a range at `a` that does not exist. -/
def faultAddress (a : Word) : Word := BitVec.ofNat 16 (max a.toNat 0x1000)

end Sys2Proof.Machine
end

