-- ==== Sys2Proof/Machine/Ops.lean ====
section
/-! DEFINITION. The operations on the state that the instructions and the step share: registers, the inputs
of the step, the call stack, fault entry, the common phases of a step (40_cycle.md R81), reset with load and
the outputs. -/

namespace Sys2Proof.Machine

/-- What a meaning and a step answer. -/
abbrev Result := Host.Outcome State Fault Refusal

/-- The code of a cause in FAULT.cause (60_exceptions.md R202). -/
def FaultCause.code : FaultCause → BitVec 3
  | .none => 0
  | .unknownOpcode => 1
  | .addressOutOfRange => 2
  | .stackOverflow => 3
  | .stackUnderflow => 4
  | .keyIndexOutOfRange => 5

/-- The bit of a status (10_state.md R32). -/
def Status.bit : Status → BitVec 1
  | .running => 0
  | .runningDraw => 1

namespace Environment

/-- The inputs of the step now requested (40_cycle.md R80): the oldest the environment has fixed, free
values where it has fixed none (log entry 1). -/
def current (e : Environment) : StepInput :=
  match e.pending with
  | inp :: _ => inp
  | [] => { keys := Config.freeKeys e.count, tick := Config.freeTick e.count, rand := Config.freeRand e.count }

/-- The step is over: its inputs are gone (R25: "the core keeps no copy"). -/
def advance (e : Environment) : Environment := { pending := e.pending.tail, count := e.count + 1 }

end Environment

namespace State

/-! ### Registers -/

/-- `V[r]` (00_scope.md R6). -/
def readV (s : State) (r : Reg) : Byte := s.v.get r

/-- `V[r] <- b` (R6). -/
def setV (s : State) (r : Reg) (b : Byte) : State := { s with v := s.v.set r.val b r.isLt }

/-- `PC <- target` (R6). -/
def setPc (s : State) (target : Word) : State := { s with pc := target }

/-- `I <- a`. -/
def setI (s : State) (a : Word) : State := { s with i := a }

/-- `DT <- b` (10_state.md R19). -/
def setDt (s : State) (b : Byte) : State := { s with dt := b }

/-- `ST <- b` (R20). -/
def setSt (s : State) (b : Byte) : State := { s with st := b }

/-- `STATUS <- x` (R22). -/
def setStatus (s : State) (x : Status) : State := { s with status := x }

/-- Replace FB (R21). -/
def setFb (s : State) (fb : Framebuffer) : State := { s with fb := fb }

/-- Replace MEM. -/
def setMem (s : State) (m : Memory) : State := { s with mem := m }

/-- The inputs of this step (40_cycle.md R80). -/
def input (s : State) : StepInput := s.env.current

/-! ### Faults (60_exceptions.md) -/

/-- FAULT holds a cause other than None (R207). -/
def halted (s : State) : Bool := decide (s.fault.cause ≠ .none)

/-- FAULT ENTRY, R204: `s0`, the state the step began in, in every component, except STATUS = Running and
FAULT = (cause, pc0, instr, addr). There is no handler and no return from a fault (R208). -/
def enterFault (s0 : State) (cause : FaultCause) (instr addr : Word) : State :=
  { s0 with status := .running, fault := { cause := cause, pc := s0.pc, instr := instr, addr := addr } }

/-- The word at PC: `MemRead(PC, 2)` (40_cycle.md R84). -/
def fetchedWord (s : State) : Word := s.mem.readWord s.pc.toNat

/-- `raise Fault(cause, addr)` in the execute phase (R6, R204): no write has been made (R205), so the state
the step began in is this one with PC taken back to `pc0`, and the word fetched still stands there (log
entry 6). -/
def raiseFault (s : State) (cause : FaultCause) (addr : Word) : State :=
  let s0 := s.setPc (s.pc - 2)
  s0.enterFault cause s0.fetchedWord addr

/-- R44 for the data accesses: `t` if the range of `n` bytes at I is admitted, else the fault, with nothing
of the access done. -/
def guardRange (s : State) (n : Nat) (t : State) : State :=
  if rangeAdmitted s.i.toNat n then t else s.raiseFault .addressOutOfRange (faultAddress s.i)

/-! ### Call stack (10_state.md R18) -/

/-- `push(a)`; none where it raises StackOverflow (SP = 16). -/
def push (s : State) (a : Word) : Option State :=
  if h : s.sp.val < 16 then
    some { s with stack := s.stack.set s.sp.val a h, sp := ⟨s.sp.val + 1, by omega⟩ }
  else none

/-- `pop()`: the entry and the state after; none where it raises StackUnderflow (SP = 0). -/
def pop (s : State) : Option (Word × State) :=
  if h : 0 < s.sp.val then
    some (s.stack[s.sp.val - 1]'(by omega), { s with sp := ⟨s.sp.val - 1, by omega⟩ })
  else none

/-! ### The phases every step has (40_cycle.md R81) -/

/-- Phase 2's check: the range [PC, PC+1] is admitted (R84). -/
def fetchable (s : State) : Bool := rangeAdmitted s.pc.toNat 2

/-- Phases 1 and 3: `STATUS <- Running` (R83), `PC <- PC + 2` (R85). -/
def beginStep (s : State) : State := { s with status := .running, pc := s.pc + 2 }

/-- One timer's decrement, never below 0 (R88). -/
def decrement (b : Byte) : Byte := if b = 0 then 0 else b - 1

/-- Phase 6 (R88). -/
def updateTimers (s : State) : State :=
  if s.input.tick then { s with dt := decrement s.dt, st := decrement s.st } else s

/-- The inputs of this step are used up. -/
def consumeInput (s : State) : State := { s with env := s.env.advance }

/-- After execute: phase 6 unless the step faulted (R88: "It does not run in a faulting step"), then the
inputs are used up. -/
def finishStep (s : State) : State := (if s.halted then s else s.updateTimers).consumeInput

/-- Phase 0 of a halted core: the step changes nothing (R82). -/
def haltedStep (s : State) : State := s.consumeInput

/-- Phase 2 with PC above 0xFFE: the fetch faults, `instr` recorded as 0x0000 (R84). -/
def fetchFaultStep (s : State) : State := (s.enterFault .addressOutOfRange 0 (faultAddress s.pc)).consumeInput

/-- Phase 4 with an Unknown word (R86). -/
def unknownStep (s : State) : State := (s.enterFault .unknownOpcode s.fetchedWord 0).consumeInput

/-- The state in which the next step fetches the word `w`: it stands big-endian at PC (20_memory.md R42). A
core that could not fetch is made able to: FAULT cleared, a PC above 0xFFE set to 0x200 (log entry 8). -/
def placeWord (s : State) (w : Word) : State :=
  let t := { s with
    fault := if s.halted then FaultRecord.clear else s.fault
    pc := if s.fetchable then s.pc else 0x0200 }
  t.setMem (t.mem.writeBytes t.pc.toNat (bytesOfWord w))

/-! ### Reset with load (70_reset_and_hazards.md R230, R232, R233) -/

/-- The state right after reset with this FONTSET and this PROGRAM; R232's precondition is `programFits`. -/
def resetWith (fontset : Vector Byte 80) (program : List Byte) : State :=
  reset.setMem (Memory.loadImage fontset program)

end State

/-- After execute, on whatever the meaning answers. -/
def finishResult : Result → Result
  | .next t => .next t.finishStep
  | .fault r => .fault r
  | .refused r => .refused r

/-! ### Outputs (40_cycle.md R92) -/

/-- The four outputs the core presents after every step and after reset. -/
structure Outputs where
  status : Status
  view : Framebuffer
  beep : Bool
  fault : FaultRecord
  deriving DecidableEq, Repr

/-- Each output is a function of the state (10_state.md R25). -/
def State.outputs (s : State) : Outputs :=
  { status := s.status, view := s.fb, beep := decide (s.st ≠ 0), fault := s.fault }

end Sys2Proof.Machine
end

