-- ==== Sys2Proof/Machine/Flags.lean ====
section
/-! DEFINITION. What the six flag-writing instructions put into VF (10_state.md R12, 42_alu.md R120): the
8-bit value 0 or 1. -/

namespace Sys2Proof.Machine

/-- The flag value of a condition. -/
def flagByte (c : Bool) : Byte := if c then 1 else 0

/-- 8XY4: 1 if the wrapped sum `r` is less than the first operand `a` (R127). -/
def carryFlag (r a : Byte) : Byte := flagByte (decide (r < a))

/-- 8XY5, 8XY7: 0 if the wrapped difference `r` is greater than the minuend `m`, else 1 (R128, R130). -/
def noBorrowFlag (r m : Byte) : Byte := flagByte (!decide (r > m))

/-- 8XY6: the bit shifted out, `V[X] & 1` (R129). -/
def shiftedOutLow (a : Byte) : Byte := a &&& 1

/-- 8XYE: the bit shifted out, `V[X] >> 7` (R131). -/
def shiftedOutHigh (a : Byte) : Byte := a >>> 7

/-- DXYN: 1 if a set sprite bit landed on a pixel that was On (44_display.md R162). -/
def collisionFlag (hit : Bool) : Byte := flagByte hit

/-- `V[0xF] <- flag`. -/
def State.setFlag (s : State) (flag : Byte) : State := s.setV regVF flag

end Sys2Proof.Machine
end

