-- ==== Sys2Proof/Machine/Operands.lean ====
section
/-! DEFINITION. The operand forms: zero-extended immediates (30_encoding.md R63), the skip (00_scope.md R6),
register blocks at I (43_index_memory.md), decimal digits (R143), keys (45_keys_timers.md). -/

namespace Sys2Proof.Machine

/-- `zext_16(NNN)` (R63). -/
def zextAddr (nnn : Addr12) : Word := nnn.setWidth 16

/-- `zext_16(V[X])` (43_index_memory.md R141, 41_flow.md R107). -/
def zextByte (b : Byte) : Word := b.setWidth 16

/-- `skip` if the condition holds: a further `PC <- PC + 2` (00_scope.md R6). -/
def State.skipIf (s : State) (c : Bool) : State := s.setPc (if c then s.pc + 2 else s.pc)

/-- V0 to V[x] in order, x + 1 bytes: what FX55 stores (R144). -/
def State.regBlock (s : State) (x : Reg) : List Byte := (s.v.toList).take (x.val + 1)

/-- `V[k] <- MEM[I + k]` for k = 0 to x; registers above are unchanged (R145). -/
def State.loadRegs (s : State) (x : Reg) : State :=
  { s with v := Vector.ofFn fun k : Fin 16 => if k ≤ x then s.mem.read (s.i.toNat + k.val) else s.readV k }

/-- The hundreds, tens and units digits of a byte (R143). -/
def bcdDigits (b : Byte) : List Byte := [b / 100, b / 10 % 10, b % 10]

/-- The address of glyph `b & 0x0F` (R142). -/
def glyphAddress (b : Byte) : Word := BitVec.ofNat 16 (Config.fontBase + 5 * (b &&& 0x0F).toNat)

/-- `keys[k] = 1` (R80). -/
def keyPressed (inp : StepInput) (k : Nat) : Bool := inp.keys.getLsbD k

/-- The least pressed key, scanning in index order 0 to 15 (45_keys_timers.md R182). -/
def lowestKey (inp : StepInput) : Option Nat := (List.range 16).find? (keyPressed inp)

end Sys2Proof.Machine
end

