-- ==== Sys2Proof/Machine/Alu.lean ====
section
/-! DEFINITION. Register load, arithmetic, logic, shifts, random (42_alu.md). Statements run in the order
written (00_scope.md R8), which shows where X = 0xF. -/

namespace Sys2Proof.Machine

/-- 6XNN, R121. -/
def execLdImm (x : Reg) (nn : Byte) (s : State) : Result := .next (s.setV x nn)

/-- 7XNN, R122: VF is not written as a flag. -/
def execAddImm (x : Reg) (nn : Byte) (s : State) : Result := .next (s.setV x (s.readV x + nn))

/-- 8XY0, R123. -/
def execLdReg (x y : Reg) (s : State) : Result := .next (s.setV x (s.readV y))

/-- 8XY1, R124. -/
def execOr (x y : Reg) (s : State) : Result := .next (s.setV x (s.readV x ||| s.readV y))

/-- 8XY2, R125. -/
def execAnd (x y : Reg) (s : State) : Result := .next (s.setV x (s.readV x &&& s.readV y))

/-- 8XY3, R126. -/
def execXor (x y : Reg) (s : State) : Result := .next (s.setV x (s.readV x ^^^ s.readV y))

/-- 8XY4, R127: VX, then VF = carry. -/
def execAddReg (x y : Reg) (s : State) : Result :=
  let a := s.readV x
  let r := a + s.readV y
  .next ((s.setV x r).setFlag (carryFlag r a))

/-- 8XY5, R128: VX, then VF = no borrow. -/
def execSub (x y : Reg) (s : State) : Result :=
  let a := s.readV x
  let r := a - s.readV y
  .next ((s.setV x r).setFlag (noBorrowFlag r a))

/-- 8XY6, R129: VF, then VX, which is read again. -/
def execShr (x : Reg) (s : State) : Result :=
  let t := s.setFlag (shiftedOutLow (s.readV x))
  .next (t.setV x (t.readV x >>> 1))

/-- 8XY7, R130: VX, then VF = no borrow, against the value of VY read before. -/
def execSubn (x y : Reg) (s : State) : Result :=
  let b := s.readV y
  let r := b - s.readV x
  .next ((s.setV x r).setFlag (noBorrowFlag r b))

/-- 8XYE, R131: VF, then VX, which is read again. -/
def execShl (x : Reg) (s : State) : Result :=
  let t := s.setFlag (shiftedOutHigh (s.readV x))
  .next (t.setV x (t.readV x <<< 1))

/-- CXNN, R132. -/
def execRnd (x : Reg) (nn : Byte) (s : State) : Result := .next (s.setV x (s.input.rand &&& nn))

end Sys2Proof.Machine
end

