-- ==== Sys2Proof/Machine/Framebuffer.lean ====
section
/-! DEFINITION. The framebuffer (44_display.md R160): reading a pixel, toggling one, and the sprite draw of
R162, pixel by pixel with clipping and the collision bit. -/

namespace Sys2Proof.Machine.Framebuffer

/-- `FB[y][x]`; Off outside the 64x32 grid, where there is no pixel. -/
def pixel (fb : Framebuffer) (x y : Nat) : Bool := (fb.toList.getD y 0).getLsbD x

/-- All 2048 pixels Off (R161). -/
def allOff : Framebuffer := Vector.replicate 32 0

/-- `FB[y][x] <- FB[y][x] ^ 1`, for a pixel of the grid. -/
def toggle (fb : Framebuffer) (x y : Nat) : Framebuffer :=
  if h : y < 32 then fb.set y (fb[y] ^^^ BitVec.twoPow 64 x) h else fb

/-- Framebuffer and collision bit while a sprite is drawn. -/
abbrev Drawing := Framebuffer × Bool

/-- Sprite bit `bit` at column `x`, row `y` of the screen: a set bit on-screen toggles the pixel, and
collides if the pixel was On; all else is dropped (R162). -/
def drawBit (d : Drawing) (bit : Bool) (x y : Nat) : Drawing :=
  if x ≤ 63 ∧ y ≤ 31 ∧ bit = true then (toggle d.1 x y, d.2 || pixel d.1 x y) else d

/-- Columns `c`, `c + 1`, … , `n` of them, of the sprite row `row` (bit 7 - c is column c). -/
def drawCols (d : Drawing) (row : Byte) (x0 y c : Nat) : Nat → Drawing
  | 0 => d
  | n + 1 => drawCols (drawBit d (row.getLsbD (7 - c)) (x0 + c) y) row x0 y (c + 1) n

/-- Sprite rows, the first at screen row `y`, each 8 columns from `x0`. -/
def drawRows (d : Drawing) (x0 y : Nat) : List Byte → Drawing
  | [] => d
  | row :: rows => drawRows (drawCols d row x0 y 0 8) x0 (y + 1) rows

/-- R162: draw the sprite rows at origin (x0, y0); the bit says whether VF becomes 1. -/
def drawSprite (fb : Framebuffer) (x0 y0 : Nat) (rows : List Byte) : Drawing :=
  drawRows (fb, false) x0 y0 rows

/-- The sprite with these rows at origin (x0, y0) has a set bit at screen column `x`, row `y` (R160). -/
def spriteCovers (rows : List Byte) (x0 y0 x y : Nat) : Bool :=
  decide (x0 ≤ x ∧ x ≤ x0 + 7 ∧ y0 ≤ y) && (rows.getD (y - y0) 0).getLsbD (7 - (x - x0))

end Sys2Proof.Machine.Framebuffer
end

