-- ==== Sys2Proof/Machine/Display.lean ====
section
/-! DEFINITION. The display instructions (44_display.md), the only ones that set STATUS to RunningDraw. -/

namespace Sys2Proof.Machine

/-- 00E0, R161. -/
def execCls (s : State) : Result := .next ((s.setFb Framebuffer.allOff).setStatus .runningDraw)

/-- The column a sprite starts at, from V[x] before the instruction (R162). -/
def State.originX (s : State) (x : Reg) : Nat := (s.readV x).toNat % 64

/-- The row a sprite starts at, from V[y] before the instruction (R162). -/
def State.originY (s : State) (y : Reg) : Nat := (s.readV y).toNat % 32

/-- The sprite's rows: the `n` bytes at I (R160). -/
def State.spriteRows (s : State) (n : Count4) : List Byte := s.mem.readBytes s.i.toNat n.val

/-- DXYN, R162: both coordinates are read before VF is written; all N bytes are range-checked. -/
def execDrw (x y : Reg) (n : Count4) (s : State) : Result :=
  let d := Framebuffer.drawSprite s.fb (s.originX x) (s.originY y) (s.spriteRows n)
  .next (s.guardRange n.val (((s.setFlag (collisionFlag d.2)).setFb d.1).setStatus .runningDraw))

end Sys2Proof.Machine
end

