-- ==== Sys2Proof/Machine/Flow.lean ====
section
/-! DEFINITION. Flow control (41_flow.md): on entry PC is the address of the next sequential instruction. -/

namespace Sys2Proof.Machine

/-- 00EE, R100. -/
def execRet (s : State) : Result :=
  .next (match s.pop with
    | some (a, t) => t.setPc a
    | none => s.raiseFault .stackUnderflow 0)

/-- 1NNN, R101. -/
def execJp (nnn : Addr12) (s : State) : Result := .next (s.setPc (zextAddr nnn))

/-- 2NNN, R102. -/
def execCall (nnn : Addr12) (s : State) : Result :=
  .next (match s.push s.pc with
    | some t => t.setPc (zextAddr nnn)
    | none => s.raiseFault .stackOverflow 0)

/-- 3XNN, R103. -/
def execSeImm (x : Reg) (nn : Byte) (s : State) : Result := .next (s.skipIf (decide (s.readV x = nn)))

/-- 4XNN, R104. -/
def execSneImm (x : Reg) (nn : Byte) (s : State) : Result := .next (s.skipIf (decide (s.readV x ≠ nn)))

/-- 5XY0, R105. -/
def execSeReg (x y : Reg) (s : State) : Result := .next (s.skipIf (decide (s.readV x = s.readV y)))

/-- 9XY0, R106. -/
def execSneReg (x y : Reg) (s : State) : Result := .next (s.skipIf (decide (s.readV x ≠ s.readV y)))

/-- BNNN, R107: the sum is not reduced modulo 4096. -/
def execJpV0 (nnn : Addr12) (s : State) : Result := .next (s.setPc (zextAddr nnn + zextByte (s.readV regV0)))

end Sys2Proof.Machine
end

