-- ==== Sys2Proof/Machine/IndexMemory.lean ====
section
/-! DEFINITION. The address register and memory transfers (43_index_memory.md). I is the same after FX33,
FX55 and FX65 as before; the whole range is checked before anything is written (20_memory.md R44). -/

namespace Sys2Proof.Machine

/-- ANNN, R140. -/
def execLdI (nnn : Addr12) (s : State) : Result := .next (s.setI (zextAddr nnn))

/-- FX1E, R141: modulo 65536, VF not written, no fault. -/
def execAddI (x : Reg) (s : State) : Result := .next (s.setI (s.i + zextByte (s.readV x)))

/-- FX29, R142. -/
def execLdFont (x : Reg) (s : State) : Result := .next (s.setI (glyphAddress (s.readV x)))

/-- FX33, R143. -/
def execBcd (x : Reg) (s : State) : Result :=
  .next (s.guardRange 3 (s.setMem (s.mem.writeBytes s.i.toNat (bcdDigits (s.readV x)))))

/-- FX55, R144. -/
def execStore (x : Reg) (s : State) : Result :=
  .next (s.guardRange (x.val + 1) (s.setMem (s.mem.writeBytes s.i.toNat (s.regBlock x))))

/-- FX65, R145. -/
def execLoad (x : Reg) (s : State) : Result := .next (s.guardRange (x.val + 1) (s.loadRegs x))

end Sys2Proof.Machine
end

