-- ==== Sys2Proof/Machine/KeysTimers.lean ====
section
/-! DEFINITION. The keypad and timer instructions (45_keys_timers.md). The timers' decrement is phase 6 of
every step (40_cycle.md R88), not part of these. -/

namespace Sys2Proof.Machine

/-- R186: `t` if V[x] is a key index, 0 to 15, else the fault, with the index recorded. -/
def State.guardKey (s : State) (x : Reg) (t : State) : State :=
  if (s.readV x).toNat > 15 then s.raiseFault .keyIndexOutOfRange (zextByte (s.readV x)) else t

/-- EX9E, R180. -/
def execSkp (x : Reg) (s : State) : Result :=
  .next (s.guardKey x (s.skipIf (keyPressed s.input (s.readV x).toNat)))

/-- EXA1, R181. -/
def execSknp (x : Reg) (s : State) : Result :=
  .next (s.guardKey x (s.skipIf (!keyPressed s.input (s.readV x).toNat)))

/-- FX0A, R182: the least pressed key, or PC back to this instruction's own address. -/
def execLdKey (x : Reg) (s : State) : Result :=
  .next (match lowestKey s.input with
    | some k => s.setV x (BitVec.ofNat 8 k)
    | none => s.setPc (s.pc - 2))

/-- FX07, R183: DT before this step's timer update. -/
def execLdFromDt (x : Reg) (s : State) : Result := .next (s.setV x s.dt)

/-- FX15, R184. -/
def execLdDt (x : Reg) (s : State) : Result := .next (s.setDt (s.readV x))

/-- FX18, R185. -/
def execLdSt (x : Reg) (s : State) : Result := .next (s.setSt (s.readV x))

end Sys2Proof.Machine
end

