-- ==== Sys2Proof/Machine/Step.lean ====
section
/-! DEFINITION. The step (40_cycle.md R81): halted check, status reset, fetch, PC advance, decode, execute,
timer update; and placing a word where the next step fetches. -/

namespace Sys2Proof.Machine

/-- One step, R81. A raise anywhere replaces the whole transition by the fault transition (R204). -/
def step (s : State) : Host.Outcome State Fault Refusal :=
  if s.halted then .next s.haltedStep
  else if s.fetchable then
    match decode s.fetchedWord with
    | .instr i => finishResult (exec i s.beginStep)
    | .unknown => .next s.unknownStep
  else .next s.fetchFaultStep

/-- The state with the table word stored where the next step fetches, big-endian at PC (20_memory.md R42).
A core that could not fetch at all is made able to: a halted core has its FAULT cleared, a PC above 0xFFE
becomes the reset vector (log entry 8). -/
def State.withFetchWord (s : State) (nbits w : Nat) : State :=
  s.placeWord (tableWord nbits w)

end Sys2Proof.Machine
end

