-- ==== Sys2Proof/Machine/Environment.lean ====
section
/-! DEFINITION. The environment's moves (60_exceptions.md R221): reset with load, step with chosen inputs;
observing is `State.outputs`. A move that is no step is not part of `step`. -/

namespace Sys2Proof.Machine

/-- R221's rows "reset with load" and "step". -/
inductive EnvMove where
  | reset (fontset : Vector Byte 80) (program : List Byte)
  | step (inp : StepInput)
  deriving DecidableEq, Repr

/-- The inputs are the ones of the next step. -/
def State.withInput (s : State) (inp : StepInput) : State :=
  { s with env := { s.env with pending := inp :: s.env.pending } }

/-- What the core does at a move. Reset is allowed between any two steps, also when halted (R230), and
sets every component; a PROGRAM over 3584 bytes is refused (R232). Inputs already fixed for later steps are
the environment's and stay. -/
def applyMove (m : EnvMove) (s : State) : Result :=
  match m with
  | .reset fontset program =>
    if programFits program then .next { State.resetWith fontset program with env := s.env }
    else .refused .programTooLarge
  | .step inp => step (s.withInput inp)

end Sys2Proof.Machine
end

