-- ==== Sys2Proof/Safety.lean ====
section
/-! DEFINITION. The terms the statements use: the invariant of 10_state.md R31, what a fault entry leaves
(60_exceptions.md R204), and what an instruction leaves unchanged (00_scope.md R7). -/

namespace Sys2Proof.Machine

/-- A core that runs: not halted (R207). A safe run is one whose every state runs. -/
def State.Running (s : State) : Prop := s.halted = false

/-- The invariant: the memory is in canonical form, so it has no cell beyond 0xFFF (R31); PC and every stack
entry in use are at most 0x10FE (R15, R31); while the cause is None the other fields of FAULT are 0 (R23); a
halted core shows status Running (R207). -/
def State.Inv (s : State) : Prop :=
  s.mem.wf = true ∧
  s.pc.toNat ≤ 0x10FE ∧
  (∀ k : Fin 16, k.val < s.sp.val → (s.stack.get k).toNat ≤ 0x10FE) ∧
  (s.fault.cause = .none → s.fault = FaultRecord.clear) ∧
  (s.halted = true → s.status = .running)

/-- `t` is the fault entry of `raise Fault(cause, addr)` in a step that began in `s0` and fetched `instr`
(R203, R204): `s0` in every component but STATUS and FAULT. -/
def FaultEntry (s0 : State) (cause : FaultCause) (instr addr : Word) (t : State) : Prop :=
  t = { s0 with status := .running, fault := { cause := cause, pc := s0.pc, instr := instr, addr := addr } }

/-- The same seen from the execute phase, whose PC is `pc0 + 2` (40_cycle.md R85): the step began at PC - 2,
with the word that stands there. -/
def ExecFault (s : State) (cause : FaultCause) (addr : Word) (t : State) : Prop :=
  FaultEntry { s with pc := s.pc - 2 } cause (s.mem.readWord (s.pc - 2).toNat) addr t

/-- The components of the state other than V and MEM. -/
inductive Component where
  | pc | i | stack | sp | dt | st | fb | status | fault | env
  deriving DecidableEq, Repr

/-- The component has the same value in both states. -/
def Component.same (s t : State) : Component → Prop
  | .pc => t.pc = s.pc
  | .i => t.i = s.i
  | .stack => t.stack = s.stack
  | .sp => t.sp = s.sp
  | .dt => t.dt = s.dt
  | .st => t.st = s.st
  | .fb => t.fb = s.fb
  | .status => t.status = s.status
  | .fault => t.fault = s.fault
  | .env => t.env = s.env

/-- THE FRAME (R7): from `s` to `t` only the registers in `regs`, the `len` bytes of memory from `base` on
and the components in `comps` may differ. Memory is seen through the read of one byte. -/
def Frame (regs : List Reg) (base len : Nat) (comps : List Component) (s t : State) : Prop :=
  (∀ r : Reg, r ∉ regs → t.readV r = s.readV r) ∧
  (∀ a : Nat, a < base ∨ base + len ≤ a → t.mem.read a = s.mem.read a) ∧
  (∀ c : Component, c ∉ comps → c.same s t)

/-- The address a fault records for a range that starts at `a`: `max(a, 0x1000)` (20_memory.md R44). -/
def missingAddress (a : Word) : Word := BitVec.ofNat 16 (max a.toNat 0x1000)

/-- The fault the instruction raises in the execute phase, by the table of R201, with the address it records:
a function of V, I and SP alone. -/
def expectedFault (i : Instr) (s : State) : Option (FaultCause × Word) :=
  match i with
  | .call _ => if s.sp.val = 16 then some (.stackOverflow, 0) else none
  | .ret => if s.sp.val = 0 then some (.stackUnderflow, 0) else none
  | .skp x | .sknp x =>
    if 16 ≤ (s.readV x).toNat then some (.keyIndexOutOfRange, (s.readV x).setWidth 16) else none
  | .bcd _ => if 0x0FFE ≤ s.i.toNat then some (.addressOutOfRange, missingAddress s.i) else none
  | .store x | .load x =>
    if 0x1000 ≤ s.i.toNat + x.val then some (.addressOutOfRange, missingAddress s.i) else none
  | .drw _ _ n =>
    if 1 ≤ n.val ∧ 0x1001 ≤ s.i.toNat + n.val then some (.addressOutOfRange, missingAddress s.i) else none
  | .cls | .jp _ | .seImm _ _ | .sneImm _ _ | .seReg _ _ | .ldImm _ _ | .addImm _ _ | .ldReg _ _ | .or _ _
  | .and _ _ | .xor _ _ | .addReg _ _ | .sub _ _ | .shr _ | .subn _ _ | .shl _ | .sneReg _ _ | .ldI _
  | .jpV0 _ | .rnd _ _ | .ldFromDt _ | .ldKey _ | .ldDt _ | .ldSt _ | .addI _ | .ldFont _ => none

/-- The fault record of the step from `s`, a core that runs: the first in phase order of the fetch range
check, decode, and the check of the decoded instruction (R201, R203, R206). -/
def expectedRecord (s : State) : Option FaultRecord :=
  if 0xFFF ≤ s.pc.toNat then
    some { cause := .addressOutOfRange, pc := s.pc, instr := 0, addr := missingAddress s.pc }
  else
    match decode (s.mem.readWord s.pc.toNat) with
    | .unknown => some { cause := .unknownOpcode, pc := s.pc, instr := s.mem.readWord s.pc.toNat, addr := 0 }
    | .instr i =>
      (expectedFault i s).map fun f =>
        { cause := f.1, pc := s.pc, instr := s.mem.readWord s.pc.toNat, addr := f.2 }

/-- PC after a non-faulting step that executes `i`, fetched from `pc0` = `s.pc` (41_flow.md R108). -/
def expectedPc (i : Instr) (s : State) : Word :=
  match i with
  | .ret => s.stack.toList.getD (s.sp.val - 1) 0
  | .jp nnn | .call nnn => nnn.setWidth 16
  | .jpV0 nnn => nnn.setWidth 16 + (s.readV regV0).setWidth 16
  | .seImm x nn => if s.readV x = nn then s.pc + 4 else s.pc + 2
  | .sneImm x nn => if s.readV x ≠ nn then s.pc + 4 else s.pc + 2
  | .seReg x y => if s.readV x = s.readV y then s.pc + 4 else s.pc + 2
  | .sneReg x y => if s.readV x ≠ s.readV y then s.pc + 4 else s.pc + 2
  | .skp x => if s.input.keys.getLsbD (s.readV x).toNat then s.pc + 4 else s.pc + 2
  | .sknp x => if s.input.keys.getLsbD (s.readV x).toNat then s.pc + 2 else s.pc + 4
  | .ldKey _ => if s.input.keys = 0 then s.pc else s.pc + 2
  | .cls | .ldImm _ _ | .addImm _ _ | .ldReg _ _ | .or _ _ | .and _ _ | .xor _ _ | .addReg _ _ | .sub _ _
  | .shr _ | .subn _ _ | .shl _ | .ldI _ | .rnd _ _ | .drw _ _ _ | .ldFromDt _ | .ldDt _ | .ldSt _ | .addI _
  | .ldFont _ | .bcd _ | .store _ | .load _ => s.pc + 2

/-- The registers an instruction may write (10_state.md R12, R13). -/
def writtenRegs (i : Instr) : List Reg :=
  match i with
  | .ldImm x _ | .addImm x _ | .ldReg x _ | .or x _ | .and x _ | .xor x _ | .rnd x _ | .ldFromDt x
  | .ldKey x => [x]
  | .addReg x _ | .sub x _ | .shr x | .subn x _ | .shl x => [x, regVF]
  | .drw _ _ _ => [regVF]
  | .load x => (List.finRange 16).filter fun r => decide (r ≤ x)
  | .cls | .ret | .jp _ | .call _ | .seImm _ _ | .sneImm _ _ | .seReg _ _ | .sneReg _ _ | .ldI _ | .jpV0 _
  | .skp _ | .sknp _ | .ldDt _ | .ldSt _ | .addI _ | .ldFont _ | .bcd _ | .store _ => []

/-- The components other than V and MEM that the execute phase of an instruction may write without a fault:
PC (R15), I (R16), STACK and SP (R17, R18), DT (R19), ST (R20), FB (R21), STATUS (R22). -/
def writtenComponents (i : Instr) : List Component :=
  match i with
  | .cls | .drw _ _ _ => [.fb, .status]
  | .ret => [.pc, .sp]
  | .call _ => [.pc, .stack, .sp]
  | .jp _ | .jpV0 _ | .seImm _ _ | .sneImm _ _ | .seReg _ _ | .sneReg _ _ | .skp _ | .sknp _ | .ldKey _ => [.pc]
  | .ldI _ | .addI _ | .ldFont _ => [.i]
  | .ldDt _ => [.dt]
  | .ldSt _ => [.st]
  | .ldImm _ _ | .addImm _ _ | .ldReg _ _ | .or _ _ | .and _ _ | .xor _ _ | .addReg _ _ | .sub _ _ | .shr _
  | .subn _ _ | .shl _ | .rnd _ _ | .ldFromDt _ | .bcd _ | .store _ | .load _ => []

/-- The bytes of memory the execute phase of an instruction stores, from I on: 3 for FX33, X + 1 for FX55,
none for every other (20_memory.md R45). -/
def storedLength (i : Instr) : Nat :=
  match i with
  | .bcd _ => 3
  | .store x => x.val + 1
  | .cls | .ret | .jp _ | .call _ | .seImm _ _ | .sneImm _ _ | .seReg _ _ | .ldImm _ _ | .addImm _ _ | .ldReg _ _
  | .or _ _ | .and _ _ | .xor _ _ | .addReg _ _ | .sub _ _ | .shr _ | .subn _ _ | .shl _ | .sneReg _ _ | .ldI _
  | .jpV0 _ | .rnd _ _ | .drw _ _ _ | .skp _ | .sknp _ | .ldFromDt _ | .ldKey _ | .ldDt _ | .ldSt _ | .addI _
  | .ldFont _ | .load _ => 0

/-- The sprite of N rows at I, drawn at origin (x0, y0), has a set bit at screen column `px`, row `py`: bit
7 - c of the byte at I + r, for c = 0 to 7 and r = 0 to N - 1 (44_display.md R160, R162). -/
def SpriteSets (s : State) (x0 y0 : Nat) (n : Count4) (px py : Nat) : Prop :=
  ∃ r c : Nat, r < n.val ∧ c ≤ 7 ∧ px = x0 + c ∧ py = y0 + r ∧ (s.mem.read (s.i.toNat + r)).getLsbD (7 - c) = true

end Sys2Proof.Machine
end

