-- ==== Sys2Proof/Certificates/Slice0/Obligations.lean ====
section
/-! DEFINITION. The statements for the provers. Each docstring names the rule it formalises. The statements
about one instruction are about its execute phase (40_cycle.md R87: PC already holds pc0 + 2); each also says
which words decode to it, which state it completes in, its result and its frame (00_scope.md R7). -/

open Sys2Proof Sys2Proof.Machine

/-! ### Encoding -/

/-- Tier 3. R64, R65 and log entry 12 (the Y field of 8XY6 and 8XYE is encoded as 0). -/
def Obligations.DecodeOfEncodeIsTheInstruction : Prop :=
  ∀ i : Instr, i.wf = true → decode (encode i) = .instr i

/-- R60 to R64: no bit of a valid word is lost but the ignored Y field of 8XY6 and 8XYE. -/
def Obligations.EncodeOfDecodeRestoresTheWord : Prop :=
  ∀ (w : Word) (i : Instr), decode w = .instr i →
    encode i = (match i with
      | .shr _ | .shl _ => w &&& 0xFF0F
      | _ => w)

/-- R65: `instr & mask = match` selects the instruction, and no two of the 34 rows select one word. -/
def Obligations.DecodeFollowsTheOpcodeMap : Prop :=
  opcodeRows.length = 34 ∧
  (∀ (w : Word) (r q : OpcodeRow), r ∈ opcodeRows → q ∈ opcodeRows → r.selects w = true → q.selects w = true → r = q) ∧
  (∀ (w : Word) (i : Instr), decode w = .instr i → ∃ r ∈ opcodeRows, r.pattern = i.pattern ∧ r.selects w = true) ∧
  (∀ w : Word, decode w = .unknown → ∀ r ∈ opcodeRows, r.selects w = false)

/-- R66's table, family by family. -/
def Obligations.UnknownWordsFamilyByFamily : Prop :=
  ∀ w : Word, decode w = .unknown ↔
    (opField w = 0x0 ∧ w ≠ 0x00E0 ∧ w ≠ 0x00EE) ∨
    (opField w = 0x5 ∧ nField w ≠ 0) ∨
    (opField w = 0x8 ∧ 8 ≤ (nField w).val ∧ nField w ≠ 0xE) ∨
    (opField w = 0x9 ∧ nField w ≠ 0) ∨
    (opField w = 0xE ∧ nnField w ≠ 0x9E ∧ nnField w ≠ 0xA1) ∨
    (opField w = 0xF ∧ nnField w ∉ [0x07, 0x0A, 0x15, 0x18, 0x1E, 0x29, 0x33, 0x55, 0x65])

/-- Words of Part 3 of 95_test_vectors.md, one or two per family, and three of its Unknown words. -/
def Obligations.SampleWordsDecode : Prop :=
  decode 0x00EE = .instr .ret ∧
  decode 0x2ABC = .instr (.call 0xABC) ∧
  decode 0x3A42 = .instr (.seImm 0xA 0x42) ∧
  decode 0x8AB5 = .instr (.sub 0xA 0xB) ∧
  decode 0x8ABE = .instr (.shl 0xA) ∧
  decode 0xCA42 = .instr (.rnd 0xA 0x42) ∧
  decode 0xDAB5 = .instr (.drw 0xA 0xB 5) ∧
  decode 0xEAA1 = .instr (.sknp 0xA) ∧
  decode 0xFA55 = .instr (.store 0xA) ∧
  decode 0x0123 = .unknown ∧ decode 0x512F = .unknown ∧ decode 0xF1FF = .unknown

/-! ### The step -/

/-- R81: the phases of R82 to R88 in their places, the fault transition where one raises, and the outputs. That
`env` moves on by one in every step, halted and faulting ones too, is the model's choice (log entries 1 and 11),
not R81's. -/
def Obligations.StepFollowsThePhases : Prop :=
  ∀ s : State,
    (s.halted = true → step s = .next { s with env := s.env.advance }) ∧
    (s.halted = false → 0xFFF ≤ s.pc.toNat →
      ∃ t, FaultEntry s .addressOutOfRange 0 (missingAddress s.pc) t ∧ step s = .next { t with env := s.env.advance }) ∧
    (s.halted = false → s.pc.toNat ≤ 0xFFE → decode (s.mem.readWord s.pc.toNat) = .unknown →
      ∃ t, FaultEntry s .unknownOpcode (s.mem.readWord s.pc.toNat) 0 t ∧
        step s = .next { t with env := s.env.advance }) ∧
    (∀ (i : Instr) (t : State), s.halted = false → s.pc.toNat ≤ 0xFFE →
      decode (s.mem.readWord s.pc.toNat) = .instr i →
      exec i { s with status := .running, pc := s.pc + 2 } = .next t →
      (t.halted = true → FaultEntry s t.fault.cause t.fault.instr t.fault.addr t ∧
        step s = .next { t with env := t.env.advance }) ∧
      (t.halted = false → step s = .next { t with
        dt := if s.input.tick = true ∧ 0 < t.dt.toNat then t.dt - 1 else t.dt
        st := if s.input.tick = true ∧ 0 < t.st.toNat then t.st - 1 else t.st
        env := t.env.advance })) ∧
    (∀ t : State, step s = .next t →
      t.outputs = { status := t.status, view := t.fb, beep := decide (t.st ≠ 0), fault := t.fault })

/-- R82, R207 (the spec's own decision D10): any number of steps of a halted core changes nothing, so its
outputs hold; only `env`, the model's own field (log entry 1), moves on. -/
def Obligations.HaltedCoreChangesNothing : Prop :=
  ∀ (n : Nat) (s : State), s.halted = true →
    ∃ t : State, Host.Core.run Sys2Proof.core n s = .next t ∧ { t with env := s.env } = s ∧ t.outputs = s.outputs

/-- R204, R205 (the spec's own decision D6): a step that ends halted leaves the state it began in but for
STATUS and FAULT. -/
def Obligations.FaultEntryIsPrecise : Prop :=
  ∀ s t : State, s.halted = false → step s = .next t → t.halted = true →
    FaultEntry s t.fault.cause t.fault.instr t.fault.addr { t with env := s.env } ∧
    t.outputs = { status := .running, view := s.fb, beep := decide (s.st ≠ 0), fault := t.fault }

/-- R201, R203, R206 (the spec's own decisions D6 to D9, D13, D25): which fault a step raises, with its record;
otherwise FAULT is as before. -/
def Obligations.FaultRaisedExactlyAsTabulated : Prop :=
  ∀ s t : State, s.halted = false → step s = .next t →
    t.fault = (match expectedRecord s with
      | some f => f
      | none => s.fault)

/-- R88. -/
def Obligations.TimersUpdateAfterExecute : Prop :=
  ∀ s t : State, step s = .next t →
    (s.halted = true ∨ t.halted = true → t.dt = s.dt ∧ t.st = s.st) ∧
    (∀ (i : Instr) (u : State), s.halted = false → s.pc.toNat ≤ 0xFFE →
      decode (s.mem.readWord s.pc.toNat) = .instr i →
      exec i { s with status := .running, pc := s.pc + 2 } = .next u → u.halted = false →
      t.dt.toNat = u.dt.toNat - (if s.input.tick then 1 else 0) ∧
      t.st.toNat = u.st.toNat - (if s.input.tick then 1 else 0))

/-- R213's "a timer falls by at most 1 per step", and with R19 and R20 only its own instruction sets it. -/
def Obligations.TimersFallByAtMostOnePerStep : Prop :=
  ∀ s t : State, step s = .next t →
    ((∀ x : Reg, decode (s.mem.readWord s.pc.toNat) ≠ .instr (.ldDt x)) →
      s.dt.toNat - 1 ≤ t.dt.toNat ∧ t.dt.toNat ≤ s.dt.toNat ∧ (s.input.tick = false → t.dt = s.dt)) ∧
    ((∀ x : Reg, decode (s.mem.readWord s.pc.toNat) ≠ .instr (.ldSt x)) →
      s.st.toNat - 1 ≤ t.st.toNat ∧ t.st.toNat ≤ s.st.toNat ∧ (s.input.tick = false → t.st = s.st))

/-- R83. `Inv` rules out a halted core that shows RunningDraw, which no run reaches. -/
def Obligations.StatusShowsDrawingSteps : Prop :=
  ∀ s t : State, s.Inv → step s = .next t →
    (t.status = .runningDraw ↔
      s.halted = false ∧ t.halted = false ∧ s.pc.toNat ≤ 0xFFE ∧
      (decode (s.mem.readWord s.pc.toNat) = .instr .cls ∨
        ∃ x y n, decode (s.mem.readWord s.pc.toNat) = .instr (.drw x y n)))

/-- R80, R214, R217 (the inputs reach `step` by log entry 1): `keys` reaches EX9E, EXA1 and FX0A only, `rand` reaches CXNN only. -/
def Obligations.KeysAndRandReachOnlyTheirInstructions : Prop :=
  ∀ (s t t' : State) (inp inp' : StepInput), inp.tick = inp'.tick →
    (inp.keys = inp'.keys ∨ ∀ x : Reg, decode (s.mem.readWord s.pc.toNat) ≠ .instr (.skp x) ∧
      decode (s.mem.readWord s.pc.toNat) ≠ .instr (.sknp x) ∧ decode (s.mem.readWord s.pc.toNat) ≠ .instr (.ldKey x)) →
    (inp.rand = inp'.rand ∨ ∀ (x : Reg) (nn : Byte), decode (s.mem.readWord s.pc.toNat) ≠ .instr (.rnd x nn)) →
    step (s.withInput inp) = .next t → step (s.withInput inp') = .next t' →
    { t with env := s.env } = { t' with env := s.env }

/-- R10, R25, R26 (the spec's own decisions D1, D18; the inputs reach `step` by log entry 1): the core state after
a step and the outputs depend on the core state and the three inputs alone. Nothing else of `env` reaches them. -/
def Obligations.StepIsAFunctionOfCoreStateAndInputs : Prop :=
  ∀ s s' t t' : State, s.toCoreState = s'.toCoreState → s.input = s'.input →
    step s = .next t → step s' = .next t' → t.toCoreState = t'.toCoreState ∧ t.outputs = t'.outputs

/-- R210: `timer_tick` "causes the two decrements … and nothing else". -/
def Obligations.TickReachesOnlyTheTimers : Prop :=
  ∀ (s t t' : State) (inp inp' : StepInput), inp.keys = inp'.keys → inp.rand = inp'.rand →
    step (s.withInput inp) = .next t → step (s.withInput inp') = .next t' →
    { t with dt := s.dt, st := s.st, env := s.env } = { t' with dt := s.dt, st := s.st, env := s.env }

/-- The model's convention for the inputs (log entry 1), not a rule of the spec: the oldest fixed input is the
step's and every step moves on by one. -/
def Obligations.InputsAreTakenInOrder : Prop :=
  (∀ (s : State) (inp : StepInput), (s.withInput inp).input = inp) ∧
  (∀ s t : State, step s = .next t → t.env = { pending := s.env.pending.tail, count := s.env.count + 1 })

/-- R90: the step is a total function from state and inputs to state. -/
def Obligations.EveryStepAnswersNext : Prop :=
  ∀ s : State, ∃ t, step s = .next t

/-- Tier 3. R31 (which the spec derives from R15 and R18), with R23's clause on a clear FAULT; the canonical
form of memory is the model's own (log entry 4). -/
def Obligations.EveryStepKeepsTheInvariant : Prop :=
  ∀ s t : State, s.Inv → step s = .next t → t.Inv

/-- The invariant holds right after reset. -/
def Obligations.ResetStateMeetsTheInvariant : Prop :=
  State.reset.Inv

/-- The invariant holds after reset with any FONTSET and any PROGRAM that fits. -/
def Obligations.LoadedStateMeetsTheInvariant : Prop :=
  ∀ (fontset : Vector Byte 80) (program : List Byte), programFits program = true →
    (State.resetWith fontset program).Inv

/-- R27 (its values but PC's are the spec's own decision D11, log entry 2). -/
def Obligations.ResetValues : Prop :=
  ∀ (fontset : Vector Byte 80) (program : List Byte) (s : State), s = State.resetWith fontset program →
    s.pc = 0x0200 ∧ (∀ r : Reg, s.readV r = 0) ∧ s.i = 0 ∧ s.sp = 0 ∧ (∀ k : Fin 16, s.stack.get k = 0) ∧
    s.dt = 0 ∧ s.st = 0 ∧ (∀ x y : Nat, x < 64 → y < 32 → s.fb.pixel x y = false) ∧ s.status = .running ∧
    s.fault = { cause := .none, pc := 0, instr := 0, addr := 0 }

/-- R28: the memory image, and that of the model's `State.reset`, whose PROGRAM is empty and whose FONTSET is
the default (log entries 3 and 4). -/
def Obligations.ResetMemoryImage : Prop :=
  (∀ (fontset : Vector Byte 80) (program : List Byte) (a : Nat), programFits program = true → a ≤ 0xFFF →
    (State.resetWith fontset program).mem.read a =
      if 0x050 ≤ a ∧ a ≤ 0x09F then fontset.toList.getD (a - 0x050) 0
      else if 0x200 ≤ a ∧ a < 0x200 + program.length then program.getD (a - 0x200) 0
      else 0) ∧
  (∀ a : Nat, a ≤ 0xFFF →
    State.reset.mem.read a = if 0x050 ≤ a ∧ a ≤ 0x09F then defaultFontset.getD (a - 0x050) 0 else 0)

/-- R230, R232: reset sets every component, in a halted core too; a PROGRAM that does not fit is refused. That
`env` stays is the model's convention (log entry 14). -/
def Obligations.ResetMoveLoadsOrRefuses : Prop :=
  ∀ (fontset : Vector Byte 80) (program : List Byte) (s : State),
    (program.length ≤ 3584 →
      applyMove (.reset fontset program) s = .next { State.resetWith fontset program with env := s.env }) ∧
    (3584 < program.length → applyMove (.reset fontset program) s = .refused .programTooLarge)

/-- R231, R232: after reset the first step fetches at 0x200 the first two bytes of PROGRAM, 0x00 where it has
none, and the outputs are those of a fresh core. -/
def Obligations.FirstFetchAfterResetIsAt0x200 : Prop :=
  ∀ (fontset : Vector Byte 80) (program : List Byte), programFits program = true →
    (State.resetWith fontset program).halted = false ∧
    (State.resetWith fontset program).pc = 0x0200 ∧
    (State.resetWith fontset program).fetchedWord = wordOfBytes (program.getD 0 0) (program.getD 1 0) ∧
    (State.resetWith fontset program).outputs =
      { status := .running, view := Framebuffer.allOff, beep := false, fault := FaultRecord.clear }

/-- R108, which the spec derives from the instructions' rules: PC after a non-faulting step. -/
def Obligations.PcAfterEveryInstruction : Prop :=
  ∀ (s t : State) (i : Instr), s.halted = false → s.pc.toNat ≤ 0xFFE →
    decode (s.mem.readWord s.pc.toNat) = .instr i → expectedFault i s = none → step s = .next t →
    t.pc = expectedPc i s

/-- R12, R13, R16 to R22, R45: the frame of every instruction at once, when it does not fault. -/
def Obligations.EveryInstructionKeepsItsFrame : Prop :=
  ∀ (i : Instr) (s t : State), exec i s = .next t → expectedFault i s = none →
    Frame (writtenRegs i) s.i.toNat (storedLength i) (writtenComponents i) s t

/-- R50, which the spec derives: an FX55 that overwrites the next instruction is seen by the next fetch. -/
def Obligations.StoredWordIsFetchedNext : Prop :=
  ∀ (s t : State) (x : Reg), s.mem.wf = true → s.halted = false → s.pc.toNat ≤ 0xFFE →
    decode (s.mem.readWord s.pc.toNat) = .instr (.store x) → 1 ≤ x.val → s.i = s.pc + 2 →
    s.i.toNat + x.val ≤ 0xFFF → step s = .next t →
    t.pc = s.pc + 2 ∧ t.mem.readWord t.pc.toNat = wordOfBytes (s.readV 0) (s.readV 1)

/-- R163 (b), with R162: drawing the same sprite twice at the same place restores FB; the second draw collides
exactly if some set bit landed, the first time, on a pixel that was Off (log entry 17). -/
def Obligations.DrawingTwiceRestoresTheScreen : Prop :=
  ∀ (x y : Reg) (n : Count4) (s t u : State), n.val = 0 ∨ s.i.toNat + n.val ≤ 0x1000 →
    exec (.drw x y n) s = .next t → exec (.drw x y n) { t with v := s.v } = .next u →
    u.fb = s.fb ∧
    (u.readV regVF = 1 ↔ ∃ px py : Nat, px ≤ 63 ∧ py ≤ 31 ∧
      SpriteSets s ((s.readV x).toNat % 64) ((s.readV y).toNat % 32) n px py ∧ s.fb.pixel px py = false)

/-- R163 (a), which the spec derives from R162: as many pixels change as set sprite bits land on the screen. -/
def Obligations.DrawChangesOnePixelPerSetBit : Prop :=
  ∀ (x y : Reg) (n : Count4) (s t : State), n.val = 0 ∨ s.i.toNat + n.val ≤ 0x1000 →
    exec (.drw x y n) s = .next t →
    (Finset.univ.filter fun p : Fin 64 × Fin 32 => t.fb.pixel p.1.val p.2.val ≠ s.fb.pixel p.1.val p.2.val).card =
      (Finset.univ.filter fun q : Fin 16 × Fin 8 => q.1.val < n.val ∧ (s.readV y).toNat % 32 + q.1.val ≤ 31 ∧
        (s.readV x).toNat % 64 + q.2.val ≤ 63 ∧
        (s.mem.read (s.i.toNat + q.1.val)).getLsbD (7 - q.2.val) = true).card

/-- R163 (c), (d), (e), which the spec derives from R161 and R162. -/
def Obligations.DrawFlagAndRectangle : Prop :=
  ∀ (x y : Reg) (n : Count4) (s t : State), n.val = 0 ∨ s.i.toNat + n.val ≤ 0x1000 →
    exec (.drw x y n) s = .next t →
    (t.readV regVF = 0 ∨ t.readV regVF = 1) ∧
    (∀ px py : Nat, ((s.readV x).toNat % 64 ≤ px ∧ px ≤ min ((s.readV x).toNat % 64 + 7) 63 ∧
        (s.readV y).toNat % 32 ≤ py ∧ py < (s.readV y).toNat % 32 + n.val ∧ py ≤ 31) ∨
      t.fb.pixel px py = s.fb.pixel px py) ∧
    (∀ c : State, exec .cls c = .next s → t.readV regVF = 0)

/-- A table word placed where the next step fetches is the instruction that runs; in a core that could run, at
PC, with no other change (log entry 8). -/
def Obligations.PlacedWordIsTheOneThatRuns : Prop :=
  ∀ (s : State) (w : Nat) (i : Instr), s.mem.wf = true → decode (BitVec.ofNat 16 w) = .instr i →
    decodeTableWord 16 w = some i ∧
    step (s.withFetchWord 16 w) = finishResult (exec i (s.withFetchWord 16 w).beginStep) ∧
    (s.halted = false → s.pc.toNat ≤ 0xFFE →
      { s.withFetchWord 16 w with mem := s.mem } = s ∧
      ∀ a : Nat, a ≠ s.pc.toNat → a ≠ s.pc.toNat + 1 → (s.withFetchWord 16 w).mem.read a = s.mem.read a)

/-! ### Flow control (41_flow.md) -/

/-- 00EE, R100 (the fault: the spec's own decision D9; its record seen from the execute phase: log entry 6). -/
def Obligations.RetPopsThePc : Prop :=
  decode 0x00EE = .instr .ret ∧
  ∀ s : State,
    (s.sp.val ≠ 0 → ∃ t, exec .ret s = .next t ∧ t.sp.val = s.sp.val - 1 ∧
      (∀ k : Fin 16, k.val = s.sp.val - 1 → t.pc = s.stack.get k) ∧ Frame [] 0 0 [.pc, .sp] s t) ∧
    (s.sp.val = 0 → ∃ t, exec .ret s = .next t ∧ ExecFault s .stackUnderflow 0 t)

/-- 1NNN, R101. -/
def Obligations.JumpSetsPc : Prop :=
  ∀ (nnn : Addr12) (s : State),
    decode (0x1000 ||| nnn.setWidth 16) = .instr (.jp nnn) ∧
    ∃ t, exec (.jp nnn) s = .next t ∧ t.pc.toNat = nnn.toNat ∧ Frame [] 0 0 [.pc] s t

/-- 2NNN, R102 (the fault: the spec's own decision D9; its record seen from the execute phase: log entry 6). -/
def Obligations.CallPushesThePc : Prop :=
  ∀ (nnn : Addr12) (s : State),
    decode (0x2000 ||| nnn.setWidth 16) = .instr (.call nnn) ∧
    (s.sp.val < 16 → ∃ t, exec (.call nnn) s = .next t ∧ t.pc.toNat = nnn.toNat ∧ t.sp.val = s.sp.val + 1 ∧
      (∀ k : Fin 16, t.stack.get k = if k.val = s.sp.val then s.pc else s.stack.get k) ∧
      Frame [] 0 0 [.pc, .stack, .sp] s t) ∧
    (s.sp.val = 16 → ∃ t, exec (.call nnn) s = .next t ∧ ExecFault s .stackOverflow 0 t)

/-- 3XNN and 4XNN, R103 and R104. -/
def Obligations.SkipOnImmediate : Prop :=
  ∀ (x : Reg) (nn : Byte) (s : State),
    decode (0x3000 ||| (BitVec.ofNat 16 x.val <<< 8) ||| nn.setWidth 16) = .instr (.seImm x nn) ∧
    decode (0x4000 ||| (BitVec.ofNat 16 x.val <<< 8) ||| nn.setWidth 16) = .instr (.sneImm x nn) ∧
    (∃ t, exec (.seImm x nn) s = .next t ∧ t.pc = (if s.readV x = nn then s.pc + 2 else s.pc) ∧
      Frame [] 0 0 [.pc] s t) ∧
    (∃ t, exec (.sneImm x nn) s = .next t ∧ t.pc = (if s.readV x = nn then s.pc else s.pc + 2) ∧
      Frame [] 0 0 [.pc] s t)

/-- 5XY0 and 9XY0, R105 and R106. -/
def Obligations.SkipOnRegister : Prop :=
  ∀ (x y : Reg) (s : State),
    decode (0x5000 ||| (BitVec.ofNat 16 x.val <<< 8) ||| (BitVec.ofNat 16 y.val <<< 4)) = .instr (.seReg x y) ∧
    decode (0x9000 ||| (BitVec.ofNat 16 x.val <<< 8) ||| (BitVec.ofNat 16 y.val <<< 4)) = .instr (.sneReg x y) ∧
    (∃ t, exec (.seReg x y) s = .next t ∧ t.pc = (if s.readV x = s.readV y then s.pc + 2 else s.pc) ∧
      Frame [] 0 0 [.pc] s t) ∧
    (∃ t, exec (.sneReg x y) s = .next t ∧ t.pc = (if s.readV x = s.readV y then s.pc else s.pc + 2) ∧
      Frame [] 0 0 [.pc] s t)

/-- BNNN, R107: not reduced modulo 4096, and the 16-bit wrap never happens. -/
def Obligations.JumpWithOffsetAddsV0 : Prop :=
  ∀ (nnn : Addr12) (s : State),
    decode (0xB000 ||| nnn.setWidth 16) = .instr (.jpV0 nnn) ∧
    ∃ t, exec (.jpV0 nnn) s = .next t ∧ t.pc.toNat = nnn.toNat + (s.readV 0).toNat ∧ Frame [] 0 0 [.pc] s t

/-! ### Arithmetic and logic (42_alu.md) -/

/-- 6XNN, R121. -/
def Obligations.LoadImmediate : Prop :=
  ∀ (x : Reg) (nn : Byte) (s : State),
    decode (0x6000 ||| (BitVec.ofNat 16 x.val <<< 8) ||| nn.setWidth 16) = .instr (.ldImm x nn) ∧
    ∃ t, exec (.ldImm x nn) s = .next t ∧ t.readV x = nn ∧ Frame [x] 0 0 [] s t

/-- 7XNN, R122: VF is not written, unless it is the destination. -/
def Obligations.AddImmediateWrapsWithoutFlag : Prop :=
  ∀ (x : Reg) (nn : Byte) (s : State),
    decode (0x7000 ||| (BitVec.ofNat 16 x.val <<< 8) ||| nn.setWidth 16) = .instr (.addImm x nn) ∧
    ∃ t, exec (.addImm x nn) s = .next t ∧ (t.readV x).toNat = ((s.readV x).toNat + nn.toNat) % 256 ∧
      Frame [x] 0 0 [] s t

/-- 8XY0 to 8XY3, R123 to R126: VF is not written, unless it is the destination. -/
def Obligations.CopyAndLogic : Prop :=
  ∀ (x y : Reg) (s : State),
    decode (0x8000 ||| (BitVec.ofNat 16 x.val <<< 8) ||| (BitVec.ofNat 16 y.val <<< 4)) = .instr (.ldReg x y) ∧
    decode (0x8001 ||| (BitVec.ofNat 16 x.val <<< 8) ||| (BitVec.ofNat 16 y.val <<< 4)) = .instr (.or x y) ∧
    decode (0x8002 ||| (BitVec.ofNat 16 x.val <<< 8) ||| (BitVec.ofNat 16 y.val <<< 4)) = .instr (.and x y) ∧
    decode (0x8003 ||| (BitVec.ofNat 16 x.val <<< 8) ||| (BitVec.ofNat 16 y.val <<< 4)) = .instr (.xor x y) ∧
    (∃ t, exec (.ldReg x y) s = .next t ∧ t.readV x = s.readV y ∧ Frame [x] 0 0 [] s t) ∧
    (∃ t, exec (.or x y) s = .next t ∧ t.readV x = (s.readV x ||| s.readV y) ∧ Frame [x] 0 0 [] s t) ∧
    (∃ t, exec (.and x y) s = .next t ∧ t.readV x = (s.readV x &&& s.readV y) ∧ Frame [x] 0 0 [] s t) ∧
    (∃ t, exec (.xor x y) s = .next t ∧ t.readV x = (s.readV x ^^^ s.readV y) ∧ Frame [x] 0 0 [] s t)

/-- 8XY4, R127: with X = 0xF the flag replaces the sum. -/
def Obligations.AddRegisterSetsCarry : Prop :=
  ∀ (x y : Reg) (s : State),
    decode (0x8004 ||| (BitVec.ofNat 16 x.val <<< 8) ||| (BitVec.ofNat 16 y.val <<< 4)) = .instr (.addReg x y) ∧
    ∃ t, exec (.addReg x y) s = .next t ∧
      (x ≠ regVF → (t.readV x).toNat = ((s.readV x).toNat + (s.readV y).toNat) % 256) ∧
      t.readV regVF = (if 256 ≤ (s.readV x).toNat + (s.readV y).toNat then 1 else 0) ∧
      Frame [x, regVF] 0 0 [] s t

/-- 8XY5, R128: with X = 0xF the flag replaces the difference. -/
def Obligations.SubtractSetsNoBorrow : Prop :=
  ∀ (x y : Reg) (s : State),
    decode (0x8005 ||| (BitVec.ofNat 16 x.val <<< 8) ||| (BitVec.ofNat 16 y.val <<< 4)) = .instr (.sub x y) ∧
    ∃ t, exec (.sub x y) s = .next t ∧
      (x ≠ regVF → (t.readV x).toNat = ((s.readV x).toNat + 256 - (s.readV y).toNat) % 256) ∧
      t.readV regVF = (if (s.readV y).toNat ≤ (s.readV x).toNat then 1 else 0) ∧
      Frame [x, regVF] 0 0 [] s t

/-- 8XY6, R129: every Y decodes alike; with X = 0xF, VF ends as 0 (the spec's own decision D15). -/
def Obligations.ShiftRightByOne : Prop :=
  ∀ (x y : Reg) (s : State),
    decode (0x8006 ||| (BitVec.ofNat 16 x.val <<< 8) ||| (BitVec.ofNat 16 y.val <<< 4)) = .instr (.shr x) ∧
    ∃ t, exec (.shr x) s = .next t ∧
      (x ≠ regVF → (t.readV x).toNat = (s.readV x).toNat / 2 ∧ (t.readV regVF).toNat = (s.readV x).toNat % 2) ∧
      (x = regVF → t.readV regVF = 0) ∧
      Frame [x, regVF] 0 0 [] s t

/-- 8XY7, R130: with X = 0xF the flag replaces the difference. -/
def Obligations.ReverseSubtractSetsNoBorrow : Prop :=
  ∀ (x y : Reg) (s : State),
    decode (0x8007 ||| (BitVec.ofNat 16 x.val <<< 8) ||| (BitVec.ofNat 16 y.val <<< 4)) = .instr (.subn x y) ∧
    ∃ t, exec (.subn x y) s = .next t ∧
      (x ≠ regVF → (t.readV x).toNat = ((s.readV y).toNat + 256 - (s.readV x).toNat) % 256) ∧
      t.readV regVF = (if (s.readV x).toNat ≤ (s.readV y).toNat then 1 else 0) ∧
      Frame [x, regVF] 0 0 [] s t

/-- 8XYE, R131: every Y decodes alike; with X = 0xF, VF ends as 2 if its bit 7 was set, else 0 (the
spec's own decision D15). -/
def Obligations.ShiftLeftByOne : Prop :=
  ∀ (x y : Reg) (s : State),
    decode (0x800E ||| (BitVec.ofNat 16 x.val <<< 8) ||| (BitVec.ofNat 16 y.val <<< 4)) = .instr (.shl x) ∧
    ∃ t, exec (.shl x) s = .next t ∧
      (x ≠ regVF → (t.readV x).toNat = 2 * (s.readV x).toNat % 256 ∧ (t.readV regVF).toNat = (s.readV x).toNat / 128) ∧
      (x = regVF → t.readV regVF = if 128 ≤ (s.readV x).toNat then 2 else 0) ∧
      Frame [x, regVF] 0 0 [] s t

/-- CXNN, R132, for every random byte (`rand` is an input: the spec's own decision D18, log entry 1). -/
def Obligations.RandomMaskedByImmediate : Prop :=
  ∀ (x : Reg) (nn rand : Byte) (s : State), s.input.rand = rand →
    decode (0xC000 ||| (BitVec.ofNat 16 x.val <<< 8) ||| nn.setWidth 16) = .instr (.rnd x nn) ∧
    ∃ t, exec (.rnd x nn) s = .next t ∧ t.readV x = (rand &&& nn) ∧ Frame [x] 0 0 [] s t

/-! ### Address register and memory (43_index_memory.md) -/

/-- ANNN, R140. -/
def Obligations.LoadAddressRegister : Prop :=
  ∀ (nnn : Addr12) (s : State),
    decode (0xA000 ||| nnn.setWidth 16) = .instr (.ldI nnn) ∧
    ∃ t, exec (.ldI nnn) s = .next t ∧ t.i.toNat = nnn.toNat ∧ Frame [] 0 0 [.i] s t

/-- FX1E, R141: modulo 65536 (the spec's own decision D3), VF not written, no fault. -/
def Obligations.AddToAddressRegister : Prop :=
  ∀ (x : Reg) (s : State),
    decode (0xF01E ||| (BitVec.ofNat 16 x.val <<< 8)) = .instr (.addI x) ∧
    ∃ t, exec (.addI x) s = .next t ∧ t.i.toNat = (s.i.toNat + (s.readV x).toNat) % 65536 ∧ Frame [] 0 0 [.i] s t

/-- FX29, R142: only the low nibble of VX counts. -/
def Obligations.AddressOfGlyph : Prop :=
  ∀ (x : Reg) (s : State),
    decode (0xF029 ||| (BitVec.ofNat 16 x.val <<< 8)) = .instr (.ldFont x) ∧
    ∃ t, exec (.ldFont x) s = .next t ∧ t.i.toNat = 0x050 + 5 * ((s.readV x).toNat % 16) ∧ Frame [] 0 0 [.i] s t

/-- FX33, R143 (the fault: the spec's own decision D8; its record seen from the execute phase: log entry 6).
`wf`: the memory is in canonical form, as every step keeps it. -/
def Obligations.StoreDecimalDigits : Prop :=
  ∀ (x : Reg) (s : State),
    decode (0xF033 ||| (BitVec.ofNat 16 x.val <<< 8)) = .instr (.bcd x) ∧
    (s.i.toNat + 2 ≤ 0xFFF → ∃ t, exec (.bcd x) s = .next t ∧
      (s.mem.wf = true →
        (t.mem.read s.i.toNat).toNat = (s.readV x).toNat / 100 ∧
        (t.mem.read (s.i.toNat + 1)).toNat = (s.readV x).toNat / 10 % 10 ∧
        (t.mem.read (s.i.toNat + 2)).toNat = (s.readV x).toNat % 10) ∧
      Frame [] s.i.toNat 3 [] s t) ∧
    (0xFFF < s.i.toNat + 2 → ∃ t, exec (.bcd x) s = .next t ∧ ExecFault s .addressOutOfRange (missingAddress s.i) t)

/-- FX55, R144 (the fault: D8 and log entry 6; I unchanged: D19, the spec's own decisions). -/
def Obligations.StoreRegisterBlock : Prop :=
  ∀ (x : Reg) (s : State),
    decode (0xF055 ||| (BitVec.ofNat 16 x.val <<< 8)) = .instr (.store x) ∧
    (s.i.toNat + x.val ≤ 0xFFF → ∃ t, exec (.store x) s = .next t ∧
      (s.mem.wf = true → ∀ k : Reg, k ≤ x → t.mem.read (s.i.toNat + k.val) = s.readV k) ∧
      Frame [] s.i.toNat (x.val + 1) [] s t) ∧
    (0xFFF < s.i.toNat + x.val →
      ∃ t, exec (.store x) s = .next t ∧ ExecFault s .addressOutOfRange (missingAddress s.i) t)

/-- FX65, R145 (the fault: D8 and log entry 6; I unchanged: D19, the spec's own decisions). -/
def Obligations.LoadRegisterBlock : Prop :=
  ∀ (x : Reg) (s : State),
    decode (0xF065 ||| (BitVec.ofNat 16 x.val <<< 8)) = .instr (.load x) ∧
    (s.i.toNat + x.val ≤ 0xFFF → ∃ t, exec (.load x) s = .next t ∧
      (∀ k : Reg, k ≤ x → t.readV k = s.mem.read (s.i.toNat + k.val)) ∧
      Frame ((List.finRange 16).filter fun r => decide (r ≤ x)) 0 0 [] s t) ∧
    (0xFFF < s.i.toNat + x.val →
      ∃ t, exec (.load x) s = .next t ∧ ExecFault s .addressOutOfRange (missingAddress s.i) t)

/-! ### Display (44_display.md) -/

/-- 00E0, R161. -/
def Obligations.ClearScreen : Prop :=
  decode 0x00E0 = .instr .cls ∧
  ∀ s : State, ∃ t, exec .cls s = .next t ∧
    (∀ x y : Nat, x < 64 → y < 32 → t.fb.pixel x y = false) ∧ t.status = .runningDraw ∧ Frame [] 0 0 [.fb, .status] s t

/-- DXYN, R162: coordinates from before VF is written, XOR, clipping, collision, the range check over all N
bytes (the spec's own decisions D8, D16, D17; the fault's record seen from the execute phase: log entry 6). -/
def Obligations.DrawSprite : Prop :=
  ∀ (x y : Reg) (n : Count4) (s : State) (x0 y0 : Nat),
    x0 = (s.readV x).toNat % 64 → y0 = (s.readV y).toNat % 32 →
    decode (0xD000 ||| (BitVec.ofNat 16 x.val <<< 8) ||| (BitVec.ofNat 16 y.val <<< 4) ||| BitVec.ofNat 16 n.val) =
      .instr (.drw x y n) ∧
    (n.val = 0 ∨ s.i.toNat + n.val - 1 ≤ 0xFFF → ∃ t, exec (.drw x y n) s = .next t ∧
      (∀ px py : Nat, px ≤ 63 → py ≤ 31 →
        (SpriteSets s x0 y0 n px py → t.fb.pixel px py = !s.fb.pixel px py) ∧
        (¬ SpriteSets s x0 y0 n px py → t.fb.pixel px py = s.fb.pixel px py)) ∧
      ((∃ px py : Nat, px ≤ 63 ∧ py ≤ 31 ∧ SpriteSets s x0 y0 n px py ∧ s.fb.pixel px py = true) →
        t.readV regVF = 1) ∧
      (¬ (∃ px py : Nat, px ≤ 63 ∧ py ≤ 31 ∧ SpriteSets s x0 y0 n px py ∧ s.fb.pixel px py = true) →
        t.readV regVF = 0) ∧
      t.status = .runningDraw ∧ Frame [regVF] 0 0 [.fb, .status] s t) ∧
    (1 ≤ n.val → 0xFFF < s.i.toNat + n.val - 1 →
      ∃ t, exec (.drw x y n) s = .next t ∧ ExecFault s .addressOutOfRange (missingAddress s.i) t)

/-! ### Keys and timers (45_keys_timers.md) -/

/-- EX9E and EXA1, R180, R181, R186: the whole of VX is the index (the fault: the spec's own decision D13; its
record seen from the execute phase: log entry 6). -/
def Obligations.SkipOnKey : Prop :=
  ∀ (x : Reg) (s : State),
    decode (0xE09E ||| (BitVec.ofNat 16 x.val <<< 8)) = .instr (.skp x) ∧
    decode (0xE0A1 ||| (BitVec.ofNat 16 x.val <<< 8)) = .instr (.sknp x) ∧
    ((s.readV x).toNat ≤ 15 →
      (∃ t, exec (.skp x) s = .next t ∧
        t.pc = (if s.input.keys.getLsbD (s.readV x).toNat = true then s.pc + 2 else s.pc) ∧ Frame [] 0 0 [.pc] s t) ∧
      (∃ t, exec (.sknp x) s = .next t ∧
        t.pc = (if s.input.keys.getLsbD (s.readV x).toNat = true then s.pc else s.pc + 2) ∧ Frame [] 0 0 [.pc] s t)) ∧
    (15 < (s.readV x).toNat →
      (∃ t, exec (.skp x) s = .next t ∧ ExecFault s .keyIndexOutOfRange ((s.readV x).setWidth 16) t) ∧
      (∃ t, exec (.sknp x) s = .next t ∧ ExecFault s .keyIndexOutOfRange ((s.readV x).setWidth 16) t))

/-- FX0A, R182: the least pressed key, or PC back by 2; a stalled step is complete in every other respect. -/
def Obligations.WaitForKey : Prop :=
  ∀ (x : Reg) (s : State),
    decode (0xF00A ||| (BitVec.ofNat 16 x.val <<< 8)) = .instr (.ldKey x) ∧
    (∀ k : Nat, k < 16 → s.input.keys.getLsbD k = true → (∀ j : Nat, j < k → s.input.keys.getLsbD j = false) →
      ∃ t, exec (.ldKey x) s = .next t ∧ (t.readV x).toNat = k ∧ Frame [x] 0 0 [] s t) ∧
    ((∀ k : Nat, k < 16 → s.input.keys.getLsbD k = false) →
      ∃ t, exec (.ldKey x) s = .next t ∧ t.pc = s.pc - 2 ∧ Frame [] 0 0 [.pc] s t) ∧
    (∀ t : State, s.halted = false → s.pc.toNat ≤ 0xFFE → decode (s.mem.readWord s.pc.toNat) = .instr (.ldKey x) →
      (∀ k : Nat, k < 16 → s.input.keys.getLsbD k = false) → step s = .next t →
      t.pc = s.pc ∧ t.v = s.v ∧ t.status = .running ∧
      t.dt.toNat = s.dt.toNat - (if s.input.tick then 1 else 0) ∧
      t.st.toNat = s.st.toNat - (if s.input.tick then 1 else 0))

/-- FX07, R183: DT as it stands before the step's timer update. -/
def Obligations.ReadDelayTimer : Prop :=
  ∀ (x : Reg) (s : State),
    decode (0xF007 ||| (BitVec.ofNat 16 x.val <<< 8)) = .instr (.ldFromDt x) ∧
    (∃ t, exec (.ldFromDt x) s = .next t ∧ t.readV x = s.dt ∧ Frame [x] 0 0 [] s t) ∧
    (∀ t : State, s.halted = false → s.pc.toNat ≤ 0xFFE →
      decode (s.mem.readWord s.pc.toNat) = .instr (.ldFromDt x) → step s = .next t →
      t.readV x = s.dt ∧ t.dt.toNat = s.dt.toNat - (if s.input.tick then 1 else 0))

/-- FX15, R184: the timer update of the same step applies to the new value. -/
def Obligations.SetDelayTimer : Prop :=
  ∀ (x : Reg) (s : State),
    decode (0xF015 ||| (BitVec.ofNat 16 x.val <<< 8)) = .instr (.ldDt x) ∧
    (∃ t, exec (.ldDt x) s = .next t ∧ t.dt = s.readV x ∧ Frame [] 0 0 [.dt] s t) ∧
    (∀ t : State, s.halted = false → s.pc.toNat ≤ 0xFFE →
      decode (s.mem.readWord s.pc.toNat) = .instr (.ldDt x) → step s = .next t →
      t.dt.toNat = (s.readV x).toNat - (if s.input.tick then 1 else 0))

/-- FX18, R185: the timer update of the same step applies to the new value, and `beep` is computed after it. -/
def Obligations.SetSoundTimerAndBeep : Prop :=
  ∀ (x : Reg) (s : State),
    decode (0xF018 ||| (BitVec.ofNat 16 x.val <<< 8)) = .instr (.ldSt x) ∧
    (∃ t, exec (.ldSt x) s = .next t ∧ t.st = s.readV x ∧ Frame [] 0 0 [.st] s t) ∧
    (∀ t : State, s.halted = false → s.pc.toNat ≤ 0xFFE →
      decode (s.mem.readWord s.pc.toNat) = .instr (.ldSt x) → step s = .next t →
      t.st.toNat = (s.readV x).toNat - (if s.input.tick then 1 else 0) ∧
      (t.outputs.beep = true ↔ (if s.input.tick then 1 else 0) < (s.readV x).toNat))
end

