-- ==== Sys2Proof/Laws/Decode.lean ====
section
/-! SUPPORT. The fields of the words the encoder builds, the bytes of a word, and the table's word: what the
decoder's proofs cite instead of unfolding bit vectors. -/

namespace Sys2Proof

/-! ### A field of an or is the or of the fields -/

theorem opField_or (a b : Word) : opField (a ||| b) = opField a ||| opField b := by
  simp [opField, BitVec.extractLsb'_or]

theorem nnField_or (a b : Word) : nnField (a ||| b) = nnField a ||| nnField b := by
  simp [nnField, BitVec.extractLsb'_or]

theorem nnnField_or (a b : Word) : nnnField (a ||| b) = nnnField a ||| nnnField b := by
  simp [nnnField, BitVec.extractLsb'_or]

theorem xField_or (a b : Word) : xField (a ||| b) = xField a ||| xField b := by
  simp [xField, BitVec.extractLsb'_or]

theorem yField_or (a b : Word) : yField (a ||| b) = yField a ||| yField b := by
  simp [yField, BitVec.extractLsb'_or]

theorem nField_or (a b : Word) : nField (a ||| b) = nField a ||| nField b := by
  simp [nField, BitVec.extractLsb'_or]

@[simp] theorem fin16_zero_or (x : Fin 16) : 0 ||| x = x := by revert x; decide
@[simp] theorem fin16_or_zero (x : Fin 16) : x ||| 0 = x := by revert x; decide

/-! ### The fields of one shifted operand -/

section
variable (x y n : Fin 16) (nn : Byte) (nnn : Addr12)

@[simp] theorem opField_shiftX : opField (BitVec.ofNat 16 x.val <<< 8) = 0 := by revert x; decide
@[simp] theorem xField_shiftX : xField (BitVec.ofNat 16 x.val <<< 8) = x := by revert x; decide
@[simp] theorem yField_shiftX : yField (BitVec.ofNat 16 x.val <<< 8) = 0 := by revert x; decide
@[simp] theorem nField_shiftX : nField (BitVec.ofNat 16 x.val <<< 8) = 0 := by revert x; decide
@[simp] theorem nnField_shiftX : nnField (BitVec.ofNat 16 x.val <<< 8) = 0 := by revert x; decide

@[simp] theorem opField_shiftY : opField (BitVec.ofNat 16 y.val <<< 4) = 0 := by revert y; decide
@[simp] theorem xField_shiftY : xField (BitVec.ofNat 16 y.val <<< 4) = 0 := by revert y; decide
@[simp] theorem yField_shiftY : yField (BitVec.ofNat 16 y.val <<< 4) = y := by revert y; decide
@[simp] theorem nField_shiftY : nField (BitVec.ofNat 16 y.val <<< 4) = 0 := by revert y; decide

@[simp] theorem opField_ofN : opField (BitVec.ofNat 16 n.val) = 0 := by revert n; decide
@[simp] theorem xField_ofN : xField (BitVec.ofNat 16 n.val) = 0 := by revert n; decide
@[simp] theorem yField_ofN : yField (BitVec.ofNat 16 n.val) = 0 := by revert n; decide
@[simp] theorem nField_ofN : nField (BitVec.ofNat 16 n.val) = n := by revert n; decide

@[simp] theorem opField_zextNN : opField (nn.setWidth 16) = 0 := by
  ext j hj
  simp only [opField, BitVec.getElem_extractLsb', BitVec.getLsbD_setWidth, BitVec.getLsbD_of_ge nn (12 + j) (by omega)]
  simp
@[simp] theorem xField_zextNN : xField (nn.setWidth 16) = 0 := by
  have : (nn.setWidth 16).extractLsb' 8 4 = 0#4 := by ext j hj; simp [BitVec.getLsbD_setWidth]
  simp [xField, this]
@[simp] theorem nnField_zextNN : nnField (nn.setWidth 16) = nn := by
  apply BitVec.eq_of_toNat_eq
  have := nn.isLt
  simp [nnField, BitVec.extractLsb'_toNat]
  omega

@[simp] theorem opField_zextNNN : opField (nnn.setWidth 16) = 0 := by
  ext j hj; simp [opField, BitVec.getLsbD_setWidth]
@[simp] theorem nnnField_zextNNN : nnnField (nnn.setWidth 16) = nnn := by
  apply BitVec.eq_of_toNat_eq
  have := nnn.isLt
  simp [nnnField, BitVec.extractLsb'_toNat]
  omega

end

/-! ### The fields of the encoder's words, for a base whose operand fields are 0 -/

section
variable (base : Word) (x y n : Fin 16) (nn : Byte) (nnn : Addr12)

@[simp] theorem opField_wordNNN : opField (wordNNN base nnn) = opField base := by simp [wordNNN, opField_or]
theorem nnnField_wordNNN (h : nnnField base = 0) : nnnField (wordNNN base nnn) = nnn := by
  simp [wordNNN, nnnField_or, h]

@[simp] theorem opField_wordX : opField (wordX base x) = opField base := by simp [wordX, opField_or]
@[simp] theorem nField_wordX : nField (wordX base x) = nField base := by simp [wordX, nField_or]
@[simp] theorem nnField_wordX : nnField (wordX base x) = nnField base := by simp [wordX, nnField_or]
theorem xField_wordX (h : xField base = 0) : xField (wordX base x) = x := by simp [wordX, xField_or, h]

@[simp] theorem opField_wordXNN : opField (wordXNN base x nn) = opField base := by simp [wordXNN, opField_or]
theorem xField_wordXNN (h : xField base = 0) : xField (wordXNN base x nn) = x := by
  simp [wordXNN, xField_or, xField_wordX base x h]
theorem nnField_wordXNN (h : nnField base = 0) : nnField (wordXNN base x nn) = nn := by
  simp [wordXNN, nnField_or, h]

@[simp] theorem opField_wordXY : opField (wordXY base x y) = opField base := by simp [wordXY, opField_or]
@[simp] theorem nField_wordXY : nField (wordXY base x y) = nField base := by simp [wordXY, nField_or]
theorem xField_wordXY (h : xField base = 0) : xField (wordXY base x y) = x := by
  simp [wordXY, xField_or, xField_wordX base x h]
theorem yField_wordXY (h : yField base = 0) : yField (wordXY base x y) = y := by
  simp [wordXY, wordX, yField_or, h]

@[simp] theorem opField_wordXYN : opField (wordXYN base x y n) = opField base := by simp [wordXYN, opField_or]
theorem xField_wordXYN (h : xField base = 0) : xField (wordXYN base x y n) = x := by
  simp [wordXYN, xField_or, xField_wordXY base x y h]
theorem yField_wordXYN (h : yField base = 0) : yField (wordXYN base x y n) = y := by
  simp [wordXYN, yField_or, yField_wordXY base x y h]
theorem nField_wordXYN (h : nField base = 0) : nField (wordXYN base x y n) = n := by
  simp [wordXYN, nField_or, h]

end

/-! ### A word is its fields, and its bytes -/

/-- Two words with the same OP, X, Y and N are equal. -/
theorem word_eq_of_fields {a b : Word} (ho : opField a = opField b) (hx : xField a = xField b)
    (hy : yField a = yField b) (hn : nField a = nField b) : a = b := by
  have e : ∀ w : Word, w.toNat = (opField w).toNat * 4096 + (xField w).val * 256 + (yField w).val * 16 + (nField w).val := by
    intro w
    have := w.isLt
    simp [opField, xField, yField, nField, BitVec.extractLsb'_toNat, Nat.shiftRight_eq_div_pow]
    omega
  apply BitVec.eq_of_toNat_eq
  rw [e a, e b, ho, hx, hy, hn]

/-- NN is Y then N. -/
theorem nnField_toNat (w : Word) : (nnField w).toNat = (yField w).val * 16 + (nField w).val := by
  simp [nnField, yField, nField, BitVec.extractLsb'_toNat, Nat.shiftRight_eq_div_pow]
  omega

/-- NNN is X, then Y, then N. -/
theorem nnnField_toNat (w : Word) :
    (nnnField w).toNat = (xField w).val * 256 + (yField w).val * 16 + (nField w).val := by
  simp [nnnField, xField, yField, nField, BitVec.extractLsb'_toNat, Nat.shiftRight_eq_div_pow]
  omega

theorem wordOfBytes_toNat (b0 b1 : Byte) : (wordOfBytes b0 b1).toNat = b0.toNat * 256 + b1.toNat := by
  have h := BitVec.toNat_append b0 b1
  have := b1.isLt
  rw [← Nat.shiftLeft_add_eq_or_of_lt b1.isLt, Nat.shiftLeft_eq] at h
  simpa [wordOfBytes] using h

/-- The bytes of a word, put together big-endian, are the word. -/
theorem wordOfBytes_bytes (w : Word) : wordOfBytes (w.extractLsb' 8 8) (w.extractLsb' 0 8) = w := by
  apply BitVec.eq_of_toNat_eq
  have := w.isLt
  rw [wordOfBytes_toNat]
  simp [BitVec.extractLsb'_toNat, Nat.shiftRight_eq_div_pow]
  omega

/-- The decoder on the bytes of a word is the decoder on the word. -/
theorem decodeBytes_bytesOfWord (w : Word) :
    decodeBytes (bytesOfWord w) = match decode w with
      | .instr i => .instr i []
      | .unknown => .unknown w := by
  cases h : decode w <;> simp [bytesOfWord, decodeBytes, wordOfBytes_bytes, h]

/-- What the decoder reads from a table word is the verdict on that word. -/
theorem decodeTableWord_eq (nbits w : Nat) : decodeTableWord nbits w = (decode (tableWord nbits w)).toOption := by
  unfold decodeTableWord
  rw [decodeBytes_bytesOfWord]
  cases decode (tableWord nbits w) <;> rfl

/-! ### Well-formedness -/

theorem fieldFits_iff (v w : Nat) : fieldFits v w = true ↔ v < 2 ^ w := by simp [fieldFits]

theorem fieldFits_fin (x : Fin 16) : fieldFits x.val 4 = true := (fieldFits_iff _ _).2 x.isLt

theorem fieldFits_bits {w : Nat} (b : BitVec w) : fieldFits b.toNat w = true := (fieldFits_iff _ _).2 b.isLt

/-- The operand types hold exactly the values of the fields. -/
theorem wf_all (i : Instr) : i.wf = true := by
  cases i <;> simp [Instr.wf, Instr.operands, fieldFits_fin, fieldFits_bits]

end Sys2Proof
end

