-- ==== Sys2Proof/Laws/Memory.lean ====
section
/-! SUPPORT. MEM: every operation keeps the canonical form, a read after a write, and that two canonical
memories which read alike are equal. -/

namespace Sys2Proof.Machine

namespace Memory

/-! ### The canonical form -/

theorem wfFrom_cons (lo a : Nat) (b : Byte) (m : Memory) :
    wfFrom lo ((a, b) :: m) = true ↔ lo ≤ a ∧ a < 0x1000 ∧ b ≠ resetByte a ∧ wfFrom (a + 1) m = true := by
  simp [wfFrom, and_assoc]

/-- A memory canonical from `lo` on is canonical from any lower address on. -/
theorem wfFrom_mono {lo lo' : Nat} (h : lo' ≤ lo) : ∀ {m : Memory}, wfFrom lo m = true → wfFrom lo' m = true
  | [], _ => rfl
  | (a, b) :: m, hm => by
    rw [wfFrom_cons] at hm ⊢
    exact ⟨by omega, hm.2⟩

@[simp] theorem wf_nil : wf [] = true := rfl

/-- An address below a canonical memory's first is unlisted. -/
theorem read_below : ∀ {lo : Nat} {m : Memory} {x : Nat}, wfFrom lo m = true → x < lo → read m x = resetByte x
  | _, [], _, _, _ => rfl
  | lo, (a, b) :: m, x, hm, hx => by
    rw [wfFrom_cons] at hm
    have : x ≠ a := by omega
    simp only [read, this, if_false]
    exact read_below hm.2.2.2 (by omega)

theorem read_cons_same (a : Nat) (b : Byte) {m : Memory} (hm : wfFrom (a + 1) m = true) :
    read (cons a b m) a = b := by
  unfold cons
  split
  · next h => rw [read_below hm (by omega), h]
  · simp [read]

theorem read_cons_ne (a : Nat) (b : Byte) (m : Memory) {x : Nat} (h : x ≠ a) :
    read (cons a b m) x = read m x := by
  unfold cons
  split <;> simp [read, h]

theorem wfFrom_cons' {lo a : Nat} (b : Byte) {m : Memory} (ha : lo ≤ a) (hs : a < 0x1000)
    (hm : wfFrom (a + 1) m = true) : wfFrom lo (cons a b m) = true := by
  unfold cons
  split
  · exact wfFrom_mono (by omega) hm
  · next h => rw [wfFrom_cons]; exact ⟨ha, hs, h, hm⟩

/-! ### One byte -/

/-- A write changes no other address, in any memory. -/
theorem read_write_ne : ∀ (m : Memory) (a : Nat) (b : Byte) {x : Nat}, x ≠ a → read (write m a b) x = read m x
  | [], a, b, x, h => read_cons_ne a b [] h
  | (a', b') :: m, a, b, x, h => by
    unfold write
    split
    · exact read_cons_ne a b _ h
    · split
      · next _ e => subst e; rw [read_cons_ne a b m h]; simp [read, h]
      · simp only [read]
        split
        · rfl
        · exact read_write_ne m a b h

/-- A read after a write to the same address gives the value written. -/
theorem read_write_same : ∀ {lo : Nat} {m : Memory} (a : Nat) (b : Byte), wfFrom lo m = true →
    read (write m a b) a = b
  | _, [], a, b, _ => read_cons_same a b rfl
  | lo, (a', b') :: m, a, b, hm => by
    have hm' := (wfFrom_cons lo a' b' m).1 hm
    unfold write
    split
    · next h => exact read_cons_same a b ((wfFrom_cons _ _ _ _).2 ⟨by omega, hm'.2⟩)
    · split
      · next _ e => subst e; exact read_cons_same a b hm'.2.2.2
      · next e => simp only [read, e, if_false]; exact read_write_same a b hm'.2.2.2

theorem wfFrom_write : ∀ {lo : Nat} {m : Memory} {a : Nat} (b : Byte), wfFrom lo m = true → lo ≤ a → a < 0x1000 →
    wfFrom lo (write m a b) = true
  | _, [], _, b, _, hl, ha => wfFrom_cons' b hl ha rfl
  | lo, (a', b') :: m, a, b, hm, hl, ha => by
    have hm' := (wfFrom_cons lo a' b' m).1 hm
    unfold write
    split
    · next h => exact wfFrom_cons' b hl ha ((wfFrom_cons _ _ _ _).2 ⟨by omega, hm'.2⟩)
    · split
      · next _ e => subst e; exact wfFrom_cons' b hl ha hm'.2.2.2
      · next h e =>
        exact (wfFrom_cons _ _ _ _).2 ⟨hm'.1, hm'.2.1, hm'.2.2.1, wfFrom_write b hm'.2.2.2 (by omega) ha⟩

/-- A write to an address that exists keeps the canonical form. -/
theorem wf_write {m : Memory} {a : Nat} (b : Byte) (hm : m.wf = true) (ha : a < 0x1000) :
    (write m a b).wf = true := wfFrom_write b hm (Nat.zero_le a) ha

theorem read_write {m : Memory} (hm : m.wf = true) (a : Nat) (b : Byte) (x : Nat) :
    read (write m a b) x = if x = a then b else read m x := by
  split
  · next h => subst h; exact read_write_same _ b hm
  · next h => exact read_write_ne m a b h

/-- No cell of a canonical memory lies beyond 0xFFF: those addresses read as the reset image, 0. -/
theorem read_beyond : ∀ {lo : Nat} {m : Memory} {x : Nat}, wfFrom lo m = true → 0x1000 ≤ x →
    read m x = resetByte x
  | _, [], _, _, _ => rfl
  | lo, (a, b) :: m, x, hm, hx => by
    rw [wfFrom_cons] at hm
    have : x ≠ a := by omega
    simp only [read, this, if_false]
    exact read_beyond hm.2.2.2 hx

/-! ### Several bytes -/

/-- Writing bytes leaves every address outside them alone, in any memory. -/
theorem read_writeBytes_outside : ∀ (bs : List Byte) (m : Memory) (a : Nat) {x : Nat},
    x < a ∨ a + bs.length ≤ x → read (writeBytes m a bs) x = read m x
  | [], _, _, _, _ => rfl
  | b :: bs, m, a, x, h => by
    simp only [List.length_cons] at h
    rw [writeBytes, read_writeBytes_outside bs _ (a + 1) (by omega), read_write_ne m a b (by omega)]

theorem wf_writeBytes : ∀ (bs : List Byte) {m : Memory} (a : Nat), m.wf = true → a + bs.length ≤ 0x1000 →
    (writeBytes m a bs).wf = true
  | [], _, _, hm, _ => hm
  | b :: bs, m, a, hm, h => by
    simp only [List.length_cons] at h
    exact wf_writeBytes bs (a + 1) (wf_write b hm (by omega)) (by omega)

/-- Byte `k` of the bytes written is read at `a + k`. -/
theorem read_writeBytes_inside : ∀ (bs : List Byte) {m : Memory} (a k : Nat) (hk : k < bs.length), m.wf = true →
    a + bs.length ≤ 0x1000 → read (writeBytes m a bs) (a + k) = bs[k]
  | b :: bs, m, a, 0, _, hm, h => by
    simp only [List.length_cons] at h
    rw [writeBytes, Nat.add_zero, read_writeBytes_outside bs _ (a + 1) (by omega), read_write hm]
    simp
  | b :: bs, m, a, k + 1, hk, hm, h => by
    simp only [List.length_cons] at h hk
    rw [writeBytes, show a + (k + 1) = (a + 1) + k by omega]
    simpa using read_writeBytes_inside bs (a + 1) k (by omega) (wf_write b hm (by omega)) (by omega)

@[simp] theorem length_readBytes (m : Memory) : ∀ (n a : Nat), (readBytes m a n).length = n
  | 0, _ => rfl
  | n + 1, a => by simp [readBytes, length_readBytes m n]

/-- Byte `k` of the bytes at `a` is the byte at `a + k`. -/
theorem getD_readBytes (m : Memory) : ∀ (n a k : Nat), k < n → (readBytes m a n).getD k 0 = read m (a + k)
  | n + 1, a, 0, _ => by simp [readBytes]
  | n + 1, a, k + 1, h => by
    have := getD_readBytes m n (a + 1) k (by omega)
    simp only [readBytes, List.getD_cons_succ, this]
    congr 1; omega

/-- What a two-byte write makes a word read as: the word, big-endian. -/
theorem readWord_writeBytes {m : Memory} {a : Nat} (b0 b1 : Byte) (hm : m.wf = true) (ha : a + 2 ≤ 0x1000) :
    readWord (writeBytes m a [b0, b1]) a = wordOfBytes b0 b1 := by
  have h0 := read_writeBytes_inside [b0, b1] a 0 (by simp) hm (by simpa using ha)
  have h1 := read_writeBytes_inside [b0, b1] a 1 (by simp) hm (by simpa using ha)
  rw [Nat.add_zero] at h0
  simp [readWord, h0, h1]

/-! ### Equal memories are equal lists -/

theorem eq_of_read_eq_from : ∀ {lo : Nat} {m m' : Memory}, wfFrom lo m = true → wfFrom lo m' = true →
    (∀ a, read m a = read m' a) → m = m'
  | _, [], [], _, _, _ => rfl
  | lo, [], (a, b) :: m', _, h', e => by
    have := (wfFrom_cons _ _ _ _).1 h'
    have ea := e a
    simp only [read, if_true] at ea
    exact absurd ea.symm this.2.2.1
  | lo, (a, b) :: m, [], h, _, e => by
    have := (wfFrom_cons _ _ _ _).1 h
    have ea := e a
    simp only [read, if_true] at ea
    exact absurd ea this.2.2.1
  | lo, (a, b) :: m, (a', b') :: m', h, h', e => by
    have hw := (wfFrom_cons _ _ _ _).1 h
    have hw' := (wfFrom_cons _ _ _ _).1 h'
    rcases Nat.lt_trichotomy a a' with hlt | heq | hgt
    · have ea := e a
      rw [read_below ((wfFrom_cons a' _ _ _).2 ⟨Nat.le_refl _, hw'.2⟩) hlt] at ea
      simp only [read, if_true] at ea
      exact absurd ea hw.2.2.1
    · subst heq
      have ea := e a
      simp only [read, if_true] at ea
      subst ea
      have : m = m' := eq_of_read_eq_from hw.2.2.2 hw'.2.2.2 fun x => by
        by_cases hx : x = a
        · subst hx; rw [read_below hw.2.2.2 (by omega), read_below hw'.2.2.2 (by omega)]
        · have := e x
          simpa only [read, hx, if_false] using this
      rw [this]
    · have ea := e a'
      rw [read_below ((wfFrom_cons a _ _ _).2 ⟨Nat.le_refl _, hw.2⟩) hgt] at ea
      simp only [read, if_true] at ea
      exact absurd ea.symm hw'.2.2.1

/-- Two canonical memories that read alike everywhere are the same list. -/
theorem eq_of_read_eq {m m' : Memory} (h : m.wf = true) (h' : m'.wf = true) (e : ∀ a, read m a = read m' a) :
    m = m' := eq_of_read_eq_from h h' e

end Memory

/-! ### The reset image and the range check -/

theorem length_defaultFontset : defaultFontset.length = 80 := by decide

theorem resetByte_outside {a : Nat} (h : a < 0x050 ∨ 0x0A0 ≤ a) : resetByte a = 0 := by
  unfold resetByte
  rw [if_neg (by simp only [Config.fontBase, Config.fontSize]; omega)]

theorem rangeAdmitted_iff (a n : Nat) : rangeAdmitted a n = true ↔ n = 0 ∨ a + n ≤ 0x1000 := by
  simp only [rangeAdmitted, decide_eq_true_eq]; omega

theorem rangeAdmitted_eq_false_iff (a n : Nat) : rangeAdmitted a n = false ↔ n ≠ 0 ∧ 0x1000 < a + n := by
  rw [← Bool.not_eq_true, rangeAdmitted_iff]; omega

theorem toNat_faultAddress (a : Word) : (faultAddress a).toNat = max a.toNat 0x1000 := by
  have := a.isLt
  simp only [faultAddress, BitVec.toNat_ofNat]
  omega

end Sys2Proof.Machine
end

