-- ==== Sys2Proof/Laws/State.lean ====
section
/-! SUPPORT. One lemma per field per update, so that no proof unfolds a record update; the composite updates
rewrite to the plain ones. -/

namespace Sys2Proof.Machine.State

variable (s : State)

/-! ### setV -/

@[simp] theorem setV_mem (r : Reg) (b : Byte) : (s.setV r b).mem = s.mem := rfl
@[simp] theorem setV_v (r : Reg) (b : Byte) : (s.setV r b).v = s.v.set r.val b r.isLt := rfl
@[simp] theorem setV_pc (r : Reg) (b : Byte) : (s.setV r b).pc = s.pc := rfl
@[simp] theorem setV_i (r : Reg) (b : Byte) : (s.setV r b).i = s.i := rfl
@[simp] theorem setV_stack (r : Reg) (b : Byte) : (s.setV r b).stack = s.stack := rfl
@[simp] theorem setV_sp (r : Reg) (b : Byte) : (s.setV r b).sp = s.sp := rfl
@[simp] theorem setV_dt (r : Reg) (b : Byte) : (s.setV r b).dt = s.dt := rfl
@[simp] theorem setV_st (r : Reg) (b : Byte) : (s.setV r b).st = s.st := rfl
@[simp] theorem setV_fb (r : Reg) (b : Byte) : (s.setV r b).fb = s.fb := rfl
@[simp] theorem setV_status (r : Reg) (b : Byte) : (s.setV r b).status = s.status := rfl
@[simp] theorem setV_fault (r : Reg) (b : Byte) : (s.setV r b).fault = s.fault := rfl
@[simp] theorem setV_env (r : Reg) (b : Byte) : (s.setV r b).env = s.env := rfl

/-! ### setPc -/

@[simp] theorem setPc_mem (a : Word) : (s.setPc a).mem = s.mem := rfl
@[simp] theorem setPc_v (a : Word) : (s.setPc a).v = s.v := rfl
@[simp] theorem setPc_pc (a : Word) : (s.setPc a).pc = a := rfl
@[simp] theorem setPc_i (a : Word) : (s.setPc a).i = s.i := rfl
@[simp] theorem setPc_stack (a : Word) : (s.setPc a).stack = s.stack := rfl
@[simp] theorem setPc_sp (a : Word) : (s.setPc a).sp = s.sp := rfl
@[simp] theorem setPc_dt (a : Word) : (s.setPc a).dt = s.dt := rfl
@[simp] theorem setPc_st (a : Word) : (s.setPc a).st = s.st := rfl
@[simp] theorem setPc_fb (a : Word) : (s.setPc a).fb = s.fb := rfl
@[simp] theorem setPc_status (a : Word) : (s.setPc a).status = s.status := rfl
@[simp] theorem setPc_fault (a : Word) : (s.setPc a).fault = s.fault := rfl
@[simp] theorem setPc_env (a : Word) : (s.setPc a).env = s.env := rfl

/-! ### setI -/

@[simp] theorem setI_mem (a : Word) : (s.setI a).mem = s.mem := rfl
@[simp] theorem setI_v (a : Word) : (s.setI a).v = s.v := rfl
@[simp] theorem setI_pc (a : Word) : (s.setI a).pc = s.pc := rfl
@[simp] theorem setI_i (a : Word) : (s.setI a).i = a := rfl
@[simp] theorem setI_stack (a : Word) : (s.setI a).stack = s.stack := rfl
@[simp] theorem setI_sp (a : Word) : (s.setI a).sp = s.sp := rfl
@[simp] theorem setI_dt (a : Word) : (s.setI a).dt = s.dt := rfl
@[simp] theorem setI_st (a : Word) : (s.setI a).st = s.st := rfl
@[simp] theorem setI_fb (a : Word) : (s.setI a).fb = s.fb := rfl
@[simp] theorem setI_status (a : Word) : (s.setI a).status = s.status := rfl
@[simp] theorem setI_fault (a : Word) : (s.setI a).fault = s.fault := rfl
@[simp] theorem setI_env (a : Word) : (s.setI a).env = s.env := rfl

/-! ### setDt -/

@[simp] theorem setDt_mem (b : Byte) : (s.setDt b).mem = s.mem := rfl
@[simp] theorem setDt_v (b : Byte) : (s.setDt b).v = s.v := rfl
@[simp] theorem setDt_pc (b : Byte) : (s.setDt b).pc = s.pc := rfl
@[simp] theorem setDt_i (b : Byte) : (s.setDt b).i = s.i := rfl
@[simp] theorem setDt_stack (b : Byte) : (s.setDt b).stack = s.stack := rfl
@[simp] theorem setDt_sp (b : Byte) : (s.setDt b).sp = s.sp := rfl
@[simp] theorem setDt_dt (b : Byte) : (s.setDt b).dt = b := rfl
@[simp] theorem setDt_st (b : Byte) : (s.setDt b).st = s.st := rfl
@[simp] theorem setDt_fb (b : Byte) : (s.setDt b).fb = s.fb := rfl
@[simp] theorem setDt_status (b : Byte) : (s.setDt b).status = s.status := rfl
@[simp] theorem setDt_fault (b : Byte) : (s.setDt b).fault = s.fault := rfl
@[simp] theorem setDt_env (b : Byte) : (s.setDt b).env = s.env := rfl

/-! ### setSt -/

@[simp] theorem setSt_mem (b : Byte) : (s.setSt b).mem = s.mem := rfl
@[simp] theorem setSt_v (b : Byte) : (s.setSt b).v = s.v := rfl
@[simp] theorem setSt_pc (b : Byte) : (s.setSt b).pc = s.pc := rfl
@[simp] theorem setSt_i (b : Byte) : (s.setSt b).i = s.i := rfl
@[simp] theorem setSt_stack (b : Byte) : (s.setSt b).stack = s.stack := rfl
@[simp] theorem setSt_sp (b : Byte) : (s.setSt b).sp = s.sp := rfl
@[simp] theorem setSt_dt (b : Byte) : (s.setSt b).dt = s.dt := rfl
@[simp] theorem setSt_st (b : Byte) : (s.setSt b).st = b := rfl
@[simp] theorem setSt_fb (b : Byte) : (s.setSt b).fb = s.fb := rfl
@[simp] theorem setSt_status (b : Byte) : (s.setSt b).status = s.status := rfl
@[simp] theorem setSt_fault (b : Byte) : (s.setSt b).fault = s.fault := rfl
@[simp] theorem setSt_env (b : Byte) : (s.setSt b).env = s.env := rfl

/-! ### setStatus -/

@[simp] theorem setStatus_mem (x : Status) : (s.setStatus x).mem = s.mem := rfl
@[simp] theorem setStatus_v (x : Status) : (s.setStatus x).v = s.v := rfl
@[simp] theorem setStatus_pc (x : Status) : (s.setStatus x).pc = s.pc := rfl
@[simp] theorem setStatus_i (x : Status) : (s.setStatus x).i = s.i := rfl
@[simp] theorem setStatus_stack (x : Status) : (s.setStatus x).stack = s.stack := rfl
@[simp] theorem setStatus_sp (x : Status) : (s.setStatus x).sp = s.sp := rfl
@[simp] theorem setStatus_dt (x : Status) : (s.setStatus x).dt = s.dt := rfl
@[simp] theorem setStatus_st (x : Status) : (s.setStatus x).st = s.st := rfl
@[simp] theorem setStatus_fb (x : Status) : (s.setStatus x).fb = s.fb := rfl
@[simp] theorem setStatus_status (x : Status) : (s.setStatus x).status = x := rfl
@[simp] theorem setStatus_fault (x : Status) : (s.setStatus x).fault = s.fault := rfl
@[simp] theorem setStatus_env (x : Status) : (s.setStatus x).env = s.env := rfl

/-! ### setFb -/

@[simp] theorem setFb_mem (f : Framebuffer) : (s.setFb f).mem = s.mem := rfl
@[simp] theorem setFb_v (f : Framebuffer) : (s.setFb f).v = s.v := rfl
@[simp] theorem setFb_pc (f : Framebuffer) : (s.setFb f).pc = s.pc := rfl
@[simp] theorem setFb_i (f : Framebuffer) : (s.setFb f).i = s.i := rfl
@[simp] theorem setFb_stack (f : Framebuffer) : (s.setFb f).stack = s.stack := rfl
@[simp] theorem setFb_sp (f : Framebuffer) : (s.setFb f).sp = s.sp := rfl
@[simp] theorem setFb_dt (f : Framebuffer) : (s.setFb f).dt = s.dt := rfl
@[simp] theorem setFb_st (f : Framebuffer) : (s.setFb f).st = s.st := rfl
@[simp] theorem setFb_fb (f : Framebuffer) : (s.setFb f).fb = f := rfl
@[simp] theorem setFb_status (f : Framebuffer) : (s.setFb f).status = s.status := rfl
@[simp] theorem setFb_fault (f : Framebuffer) : (s.setFb f).fault = s.fault := rfl
@[simp] theorem setFb_env (f : Framebuffer) : (s.setFb f).env = s.env := rfl

/-! ### setMem -/

@[simp] theorem setMem_mem (m : Memory) : (s.setMem m).mem = m := rfl
@[simp] theorem setMem_v (m : Memory) : (s.setMem m).v = s.v := rfl
@[simp] theorem setMem_pc (m : Memory) : (s.setMem m).pc = s.pc := rfl
@[simp] theorem setMem_i (m : Memory) : (s.setMem m).i = s.i := rfl
@[simp] theorem setMem_stack (m : Memory) : (s.setMem m).stack = s.stack := rfl
@[simp] theorem setMem_sp (m : Memory) : (s.setMem m).sp = s.sp := rfl
@[simp] theorem setMem_dt (m : Memory) : (s.setMem m).dt = s.dt := rfl
@[simp] theorem setMem_st (m : Memory) : (s.setMem m).st = s.st := rfl
@[simp] theorem setMem_fb (m : Memory) : (s.setMem m).fb = s.fb := rfl
@[simp] theorem setMem_status (m : Memory) : (s.setMem m).status = s.status := rfl
@[simp] theorem setMem_fault (m : Memory) : (s.setMem m).fault = s.fault := rfl
@[simp] theorem setMem_env (m : Memory) : (s.setMem m).env = s.env := rfl

/-! ### beginStep -/

@[simp] theorem beginStep_mem : s.beginStep.mem = s.mem := rfl
@[simp] theorem beginStep_v : s.beginStep.v = s.v := rfl
@[simp] theorem beginStep_pc : s.beginStep.pc = s.pc + 2 := rfl
@[simp] theorem beginStep_i : s.beginStep.i = s.i := rfl
@[simp] theorem beginStep_stack : s.beginStep.stack = s.stack := rfl
@[simp] theorem beginStep_sp : s.beginStep.sp = s.sp := rfl
@[simp] theorem beginStep_dt : s.beginStep.dt = s.dt := rfl
@[simp] theorem beginStep_st : s.beginStep.st = s.st := rfl
@[simp] theorem beginStep_fb : s.beginStep.fb = s.fb := rfl
@[simp] theorem beginStep_status : s.beginStep.status = .running := rfl
@[simp] theorem beginStep_fault : s.beginStep.fault = s.fault := rfl
@[simp] theorem beginStep_env : s.beginStep.env = s.env := rfl

/-! ### consumeInput -/

@[simp] theorem consumeInput_mem : s.consumeInput.mem = s.mem := rfl
@[simp] theorem consumeInput_v : s.consumeInput.v = s.v := rfl
@[simp] theorem consumeInput_pc : s.consumeInput.pc = s.pc := rfl
@[simp] theorem consumeInput_i : s.consumeInput.i = s.i := rfl
@[simp] theorem consumeInput_stack : s.consumeInput.stack = s.stack := rfl
@[simp] theorem consumeInput_sp : s.consumeInput.sp = s.sp := rfl
@[simp] theorem consumeInput_dt : s.consumeInput.dt = s.dt := rfl
@[simp] theorem consumeInput_st : s.consumeInput.st = s.st := rfl
@[simp] theorem consumeInput_fb : s.consumeInput.fb = s.fb := rfl
@[simp] theorem consumeInput_status : s.consumeInput.status = s.status := rfl
@[simp] theorem consumeInput_fault : s.consumeInput.fault = s.fault := rfl
@[simp] theorem consumeInput_env : s.consumeInput.env = s.env.advance := rfl

/-! ### loadRegs -/

@[simp] theorem loadRegs_mem (x : Reg) : (s.loadRegs x).mem = s.mem := rfl
@[simp] theorem loadRegs_pc (x : Reg) : (s.loadRegs x).pc = s.pc := rfl
@[simp] theorem loadRegs_i (x : Reg) : (s.loadRegs x).i = s.i := rfl
@[simp] theorem loadRegs_stack (x : Reg) : (s.loadRegs x).stack = s.stack := rfl
@[simp] theorem loadRegs_sp (x : Reg) : (s.loadRegs x).sp = s.sp := rfl
@[simp] theorem loadRegs_dt (x : Reg) : (s.loadRegs x).dt = s.dt := rfl
@[simp] theorem loadRegs_st (x : Reg) : (s.loadRegs x).st = s.st := rfl
@[simp] theorem loadRegs_fb (x : Reg) : (s.loadRegs x).fb = s.fb := rfl
@[simp] theorem loadRegs_status (x : Reg) : (s.loadRegs x).status = s.status := rfl
@[simp] theorem loadRegs_fault (x : Reg) : (s.loadRegs x).fault = s.fault := rfl
@[simp] theorem loadRegs_env (x : Reg) : (s.loadRegs x).env = s.env := rfl

/-! ### enterFault -/

@[simp] theorem enterFault_mem (c : FaultCause) (w a : Word) : (s.enterFault c w a).mem = s.mem := rfl
@[simp] theorem enterFault_v (c : FaultCause) (w a : Word) : (s.enterFault c w a).v = s.v := rfl
@[simp] theorem enterFault_pc (c : FaultCause) (w a : Word) : (s.enterFault c w a).pc = s.pc := rfl
@[simp] theorem enterFault_i (c : FaultCause) (w a : Word) : (s.enterFault c w a).i = s.i := rfl
@[simp] theorem enterFault_stack (c : FaultCause) (w a : Word) : (s.enterFault c w a).stack = s.stack := rfl
@[simp] theorem enterFault_sp (c : FaultCause) (w a : Word) : (s.enterFault c w a).sp = s.sp := rfl
@[simp] theorem enterFault_dt (c : FaultCause) (w a : Word) : (s.enterFault c w a).dt = s.dt := rfl
@[simp] theorem enterFault_st (c : FaultCause) (w a : Word) : (s.enterFault c w a).st = s.st := rfl
@[simp] theorem enterFault_fb (c : FaultCause) (w a : Word) : (s.enterFault c w a).fb = s.fb := rfl
@[simp] theorem enterFault_status (c : FaultCause) (w a : Word) : (s.enterFault c w a).status = .running := rfl
@[simp] theorem enterFault_fault (c : FaultCause) (w a : Word) : (s.enterFault c w a).fault = { cause := c, pc := s.pc, instr := w, addr := a } := rfl
@[simp] theorem enterFault_env (c : FaultCause) (w a : Word) : (s.enterFault c w a).env = s.env := rfl

/-! ### Registers -/

@[simp] theorem readV_setV_same (r : Reg) (b : Byte) : (s.setV r b).readV r = b := by
  simp [readV, setV, Vector.get_eq_getElem]

theorem readV_setV_ne (r q : Reg) (b : Byte) (h : q ≠ r) : (s.setV r b).readV q = s.readV q := by
  have : r.val ≠ q.val := fun e => h (Fin.ext e.symm)
  simp [readV, setV, Vector.get_eq_getElem, this]

theorem readV_setV (r q : Reg) (b : Byte) : (s.setV r b).readV q = if q = r then b else s.readV q := by
  split
  · next h => subst h; exact readV_setV_same s q b
  · next h => exact readV_setV_ne s r q b h

@[simp] theorem readV_setPc (a : Word) (r : Reg) : (s.setPc a).readV r = s.readV r := rfl
@[simp] theorem readV_setI (a : Word) (r : Reg) : (s.setI a).readV r = s.readV r := rfl
@[simp] theorem readV_setDt (b : Byte) (r : Reg) : (s.setDt b).readV r = s.readV r := rfl
@[simp] theorem readV_setSt (b : Byte) (r : Reg) : (s.setSt b).readV r = s.readV r := rfl
@[simp] theorem readV_setStatus (x : Status) (r : Reg) : (s.setStatus x).readV r = s.readV r := rfl
@[simp] theorem readV_setFb (f : Framebuffer) (r : Reg) : (s.setFb f).readV r = s.readV r := rfl
@[simp] theorem readV_setMem (m : Memory) (r : Reg) : (s.setMem m).readV r = s.readV r := rfl
@[simp] theorem readV_beginStep (r : Reg) : s.beginStep.readV r = s.readV r := rfl
@[simp] theorem readV_consumeInput (r : Reg) : s.consumeInput.readV r = s.readV r := rfl
@[simp] theorem readV_enterFault (c : FaultCause) (w a : Word) (r : Reg) : (s.enterFault c w a).readV r = s.readV r := rfl

theorem readV_loadRegs (x r : Reg) :
    (s.loadRegs x).readV r = if r ≤ x then s.mem.read (s.i.toNat + r.val) else s.readV r := by
  simp [readV, loadRegs, Vector.get_eq_getElem]

/-! ### Composite updates -/

@[simp] theorem setFlag_eq (f : Byte) : s.setFlag f = s.setV regVF f := rfl

@[simp] theorem skipIf_eq (c : Bool) : s.skipIf c = s.setPc (if c then s.pc + 2 else s.pc) := rfl

@[simp] theorem input_setV (r : Reg) (b : Byte) : (s.setV r b).input = s.input := rfl
@[simp] theorem input_setPc (a : Word) : (s.setPc a).input = s.input := rfl
@[simp] theorem input_beginStep : s.beginStep.input = s.input := rfl

/-- The halted check reads FAULT alone. -/
theorem halted_iff : s.halted = true ↔ s.fault.cause ≠ .none := by simp [halted]

theorem not_halted_iff : s.halted = false ↔ s.fault.cause = .none := by simp [halted]

@[simp] theorem halted_beginStep : s.beginStep.halted = s.halted := rfl
@[simp] theorem halted_consumeInput : s.consumeInput.halted = s.halted := rfl
@[simp] theorem halted_setPc (a : Word) : (s.setPc a).halted = s.halted := rfl
@[simp] theorem halted_setV (r : Reg) (b : Byte) : (s.setV r b).halted = s.halted := rfl

/-- Two states are equal if the core states and the inputs to come are. -/
theorem ext_of_coreState {s t : State} (hc : s.toCoreState = t.toCoreState) (he : s.env = t.env) : s = t := by
  cases s; cases t; simp_all

/-- The inputs to come are no part of the core state (10_state.md R25). -/
@[simp] theorem consumeInput_toCoreState : s.consumeInput.toCoreState = s.toCoreState := rfl

@[simp] theorem setEnv_toCoreState (e : Environment) : { s with env := e }.toCoreState = s.toCoreState := rfl

/-- Two states with the same core state differ in `env` alone. -/
theorem eq_setEnv_of_coreState {s t : State} (hc : s.toCoreState = t.toCoreState) : t = { s with env := t.env } :=
  ext_of_coreState hc.symm rfl

/-- Two states are equal if each of the eleven components of R10 and the inputs to come are. -/
theorem ext_of_fields {s t : State} (hm : s.mem = t.mem) (hv : s.v = t.v) (hpc : s.pc = t.pc) (hi : s.i = t.i)
    (hs : s.stack = t.stack) (hsp : s.sp = t.sp) (hd : s.dt = t.dt) (ht : s.st = t.st) (hf : s.fb = t.fb)
    (hst : s.status = t.status) (hft : s.fault = t.fault) (he : s.env = t.env) : s = t := by
  obtain ⟨⟨⟩, _⟩ := s
  obtain ⟨⟨⟩, _⟩ := t
  simp_all

end Sys2Proof.Machine.State
end

