-- ==== Sys2Proof/Laws/Ops.lean ====
section
/-! SUPPORT. One lemma per shared operation that says everything it can do: fault entry, the range check, the
call stack, the operand forms, the end of a step, placing a word, and the inversion of `exec` and `step`. -/

namespace Sys2Proof.Machine

/-! ### Fault entry -/

namespace State

variable (s : State)

theorem enterFault_spec (c : FaultCause) (w a : Word) : FaultEntry s c w a (s.enterFault c w a) := rfl

theorem raiseFault_spec (c : FaultCause) (a : Word) : ExecFault s c a (s.raiseFault c a) := rfl

theorem halted_enterFault {c : FaultCause} (h : c ≠ .none) (w a : Word) : (s.enterFault c w a).halted = true :=
  (halted_iff _).2 h

theorem halted_raiseFault {c : FaultCause} (h : c ≠ .none) (a : Word) : (s.raiseFault c a).halted = true :=
  (halted_iff _).2 h

/-! ### The checks -/

theorem guardRange_admitted {n : Nat} (t : State) (h : n = 0 ∨ s.i.toNat + n ≤ 0x1000) : s.guardRange n t = t := by
  rw [guardRange, if_pos ((rangeAdmitted_iff _ _).2 h)]

theorem guardRange_faults {n : Nat} (t : State) (h0 : n ≠ 0) (h : 0x1000 < s.i.toNat + n) :
    s.guardRange n t = s.raiseFault .addressOutOfRange (faultAddress s.i) := by
  rw [guardRange, if_neg]
  rw [rangeAdmitted_iff]
  omega

theorem guardRange_cases (n : Nat) (t : State) :
    s.guardRange n t = t ∨ s.guardRange n t = s.raiseFault .addressOutOfRange (faultAddress s.i) := by
  unfold guardRange
  split <;> simp

theorem guardKey_index {x : Reg} (t : State) (h : (s.readV x).toNat ≤ 15) : s.guardKey x t = t := by
  rw [guardKey, if_neg (by omega)]

theorem guardKey_faults {x : Reg} (t : State) (h : 15 < (s.readV x).toNat) :
    s.guardKey x t = s.raiseFault .keyIndexOutOfRange (zextByte (s.readV x)) := by
  rw [guardKey, if_pos h]

theorem guardKey_cases (x : Reg) (t : State) :
    s.guardKey x t = t ∨ s.guardKey x t = s.raiseFault .keyIndexOutOfRange (zextByte (s.readV x)) := by
  unfold guardKey
  split <;> simp

/-- 40_cycle.md R84: the fetch range is admitted up to PC = 0xFFE. -/
theorem fetchable_iff : s.fetchable = true ↔ s.pc.toNat ≤ 0xFFE := by
  rw [fetchable, rangeAdmitted_iff]; omega

/-! ### The call stack -/

theorem push_eq_none_iff (a : Word) : s.push a = none ↔ s.sp = 16 := by
  unfold push
  have := s.sp.isLt
  split <;> simp [Fin.ext_iff] <;> omega

/-- A push that does not overflow writes the entry at SP and adds 1 to SP. -/
theorem push_spec {a : Word} {t : State} (h : s.push a = some t) :
    t.sp.val = s.sp.val + 1 ∧ t = { s with stack := t.stack, sp := t.sp } ∧
    ∀ k : Fin 16, t.stack.get k = if k.val = s.sp.val then a else s.stack.get k := by
  unfold push at h
  split at h
  · next hs =>
    simp only [Option.some.injEq] at h
    subst h
    refine ⟨rfl, rfl, fun k => ?_⟩
    simp [Vector.get_eq_getElem, Vector.getElem_set, eq_comm]
  · simp at h

theorem pop_eq_none_iff : s.pop = none ↔ s.sp = 0 := by
  rw [Fin.ext_iff, pop]
  split
  · next h => exact iff_of_false (by simp) (by simpa using Nat.ne_of_gt h)
  · next h => exact iff_of_true rfl (by simpa using h)

/-- A pop that does not underflow answers the top entry and takes 1 from SP; the entry keeps its value. -/
theorem pop_spec {a : Word} {t : State} (h : s.pop = some (a, t)) :
    t.sp.val + 1 = s.sp.val ∧ t = { s with sp := t.sp } ∧ ∀ k : Fin 16, k.val + 1 = s.sp.val → a = s.stack.get k := by
  unfold pop at h
  split at h
  · next hs =>
    simp only [Option.some.injEq, Prod.mk.injEq] at h
    obtain ⟨rfl, rfl⟩ := h
    refine ⟨Nat.sub_add_cancel hs, rfl, fun k hk => ?_⟩
    rw [Vector.get_eq_getElem]
    congr 1
    omega
  · simp at h

/-! ### The end of a step -/

theorem decrement_toNat (b : Byte) : (decrement b).toNat = b.toNat - 1 := by
  unfold decrement
  split
  · next h => simp [h]
  · next h =>
    have : b.toNat ≠ 0 := fun e => h (BitVec.eq_of_toNat_eq (by simpa using e))
    have := b.isLt
    simp [BitVec.toNat_sub]
    omega

/-- Phase 6 touches the two timers only. -/
theorem updateTimers_spec : s.updateTimers = { s with dt := s.updateTimers.dt, st := s.updateTimers.st } ∧
    s.updateTimers.dt.toNat = s.dt.toNat - (if s.input.tick then 1 else 0) ∧
    s.updateTimers.st.toNat = s.st.toNat - (if s.input.tick then 1 else 0) := by
  unfold updateTimers
  split
  · next h => simp [decrement_toNat]
  · next h => simp

theorem finishStep_of_halted (h : s.halted = true) : s.finishStep = s.consumeInput := by simp [finishStep, h]

theorem finishStep_of_running (h : s.halted = false) : s.finishStep = s.updateTimers.consumeInput := by
  simp [finishStep, h]

/-- The end of a step keeps all but the timers and the inputs. -/
theorem finishStep_frame : s.finishStep = { s with dt := s.finishStep.dt, st := s.finishStep.st, env := s.env.advance } := by
  cases h : s.halted
  · rw [finishStep_of_running s h]
    obtain ⟨h1, -, -⟩ := updateTimers_spec s
    rw [h1]
    rfl
  · rw [finishStep_of_halted s h]; rfl

@[simp] theorem finishStep_fault : s.finishStep.fault = s.fault := by rw [finishStep_frame s]
@[simp] theorem finishStep_halted : s.finishStep.halted = s.halted := by simp [halted]
@[simp] theorem finishStep_pc : s.finishStep.pc = s.pc := by rw [finishStep_frame s]
@[simp] theorem finishStep_mem : s.finishStep.mem = s.mem := by rw [finishStep_frame s]
@[simp] theorem finishStep_v : s.finishStep.v = s.v := by rw [finishStep_frame s]
@[simp] theorem finishStep_i : s.finishStep.i = s.i := by rw [finishStep_frame s]
@[simp] theorem finishStep_stack : s.finishStep.stack = s.stack := by rw [finishStep_frame s]
@[simp] theorem finishStep_sp : s.finishStep.sp = s.sp := by rw [finishStep_frame s]
@[simp] theorem finishStep_fb : s.finishStep.fb = s.fb := by rw [finishStep_frame s]
@[simp] theorem finishStep_status : s.finishStep.status = s.status := by rw [finishStep_frame s]
@[simp] theorem finishStep_env : s.finishStep.env = s.env.advance := by rw [finishStep_frame s]

/-! ### Placing a word -/

/-- Whatever the state, with its memory canonical: the next step fetches the word. -/
theorem placeWord_spec (w : Word) (h : s.mem.wf = true) :
    (s.placeWord w).halted = false ∧ (s.placeWord w).fetchable = true ∧ (s.placeWord w).fetchedWord = w ∧
    (s.placeWord w).mem.wf = true := by
  have hpc : (if s.fetchable then s.pc else 0x0200).toNat ≤ 0xFFE := by
    split
    · next hf => exact (fetchable_iff s).1 hf
    · decide
  refine ⟨?_, ?_, ?_, ?_⟩
  · rw [not_halted_iff]
    show (if s.halted then FaultRecord.clear else s.fault).cause = .none
    split
    · rfl
    · next hh => exact (not_halted_iff s).1 (by simpa using hh)
  · rw [fetchable_iff]; exact hpc
  · have := Memory.readWord_writeBytes (m := s.mem) (w.extractLsb' 8 8) (w.extractLsb' 0 8) h
      (a := (if s.fetchable then s.pc else 0x0200).toNat) (by omega)
    rw [wordOfBytes_bytes] at this
    exact this
  · exact Memory.wf_writeBytes (bytesOfWord w) _ h (by simp [bytesOfWord]; omega)

end State

/-! ### The operand forms -/

theorem zextAddr_toNat (nnn : Addr12) : (zextAddr nnn).toNat = nnn.toNat := by
  have := nnn.isLt
  simp [zextAddr]; omega

theorem zextByte_toNat (b : Byte) : (zextByte b).toNat = b.toNat := by
  have := b.isLt
  simp [zextByte]; omega

@[simp] theorem length_regBlock (s : State) (x : Reg) : (s.regBlock x).length = x.val + 1 := by
  simp [State.regBlock]

theorem getElem_regBlock (s : State) (x : Reg) (k : Nat) (h : k < (s.regBlock x).length) :
    (s.regBlock x)[k] = s.readV ⟨k, by simp at h; omega⟩ := by
  simp [State.regBlock, State.readV, Vector.get_eq_getElem]

/-- The three digits, as numbers. -/
theorem bcdDigits_toNat (b : Byte) :
    (bcdDigits b).map BitVec.toNat = [b.toNat / 100, b.toNat / 10 % 10, b.toNat % 10] := by
  simp [bcdDigits]

theorem glyphAddress_toNat (b : Byte) : (glyphAddress b).toNat = 0x050 + 5 * (b.toNat % 16) := by
  have h : (b &&& 0x0F).toNat = b.toNat % 16 := by
    rw [BitVec.toNat_and]; exact Nat.and_two_pow_sub_one_eq_mod b.toNat 4
  simp only [glyphAddress, h, BitVec.toNat_ofNat, Config.fontBase]
  omega

/-- The key found is pressed and no lower one is. -/
theorem lowestKey_eq_some_iff (inp : StepInput) (k : Nat) :
    lowestKey inp = some k ↔ k < 16 ∧ keyPressed inp k = true ∧ ∀ j < k, keyPressed inp j = false := by
  simp only [lowestKey, List.find?_range_eq_some, List.mem_range, Bool.not_eq_true']
  tauto

theorem lowestKey_eq_none_iff (inp : StepInput) :
    lowestKey inp = none ↔ ∀ k < 16, keyPressed inp k = false := by
  simp [lowestKey, List.find?_eq_none]

/-! ### What exec can do -/

/-- Every meaning answers a next state. -/
theorem exec_answers_next (i : Instr) (s : State) : ∃ t, exec i s = .next t := by
  cases i <;> exact ⟨_, rfl⟩

/-- A meaning leaves FAULT alone, or it is a fault entry and nothing else. -/
theorem exec_fault_cases {i : Instr} {s t : State} (h : exec i s = .next t) :
    t.fault = s.fault ∨ ∃ c a, c ≠ FaultCause.none ∧ t = s.raiseFault c a := by
  have key : ∀ {u : State}, exec i s = .next u →
      (u.fault = s.fault ∨ ∃ c a, c ≠ FaultCause.none ∧ u = s.raiseFault c a) →
      t.fault = s.fault ∨ ∃ c a, c ≠ FaultCause.none ∧ t = s.raiseFault c a := by
    intro u hu hc
    rw [h] at hu
    cases hu
    exact hc
  have range : ∀ n (u : State), u.fault = s.fault →
      ((s.guardRange n u).fault = s.fault ∨ ∃ c a, c ≠ FaultCause.none ∧ s.guardRange n u = s.raiseFault c a) := by
    intro n u hu
    rcases State.guardRange_cases s n u with e | e <;> rw [e]
    · exact .inl hu
    · exact .inr ⟨_, _, by decide, rfl⟩
  have keys : ∀ x (u : State), u.fault = s.fault →
      ((s.guardKey x u).fault = s.fault ∨ ∃ c a, c ≠ FaultCause.none ∧ s.guardKey x u = s.raiseFault c a) := by
    intro x u hu
    rcases State.guardKey_cases s x u with e | e <;> rw [e]
    · exact .inl hu
    · exact .inr ⟨_, _, by decide, rfl⟩
  cases i with
  | ret =>
    refine key rfl ?_
    cases hp : s.pop with
    | none => exact .inr ⟨.stackUnderflow, 0, by decide, rfl⟩
    | some p =>
      obtain ⟨-, h2, -⟩ := State.pop_spec s (a := p.1) (t := p.2) hp
      exact .inl (by simp [State.setPc_fault]; rw [h2])
  | call nnn =>
    refine key rfl ?_
    cases hp : s.push s.pc with
    | none => exact .inr ⟨.stackOverflow, 0, by decide, rfl⟩
    | some p =>
      obtain ⟨-, h2, -⟩ := State.push_spec s hp
      exact .inl (by simp [State.setPc_fault]; rw [h2])
  | ldKey x =>
    refine key rfl ?_
    cases lowestKey s.input <;> exact .inl rfl
  | drw x y n => exact key rfl (range _ _ rfl)
  | bcd x => exact key rfl (range _ _ rfl)
  | store x => exact key rfl (range _ _ rfl)
  | load x => exact key rfl (range _ _ rfl)
  | skp x => exact key rfl (keys _ _ rfl)
  | sknp x => exact key rfl (keys _ _ rfl)
  | _ => exact key rfl (.inl rfl)

/-! ### What a step can do -/

/-- The four ways of a step (40_cycle.md R81). -/
theorem step_cases {s t : State} (h : step s = .next t) :
    (s.halted = true ∧ t = s.haltedStep) ∨
    (s.halted = false ∧ s.fetchable = false ∧ t = s.fetchFaultStep) ∨
    (s.halted = false ∧ s.fetchable = true ∧ decode s.fetchedWord = .unknown ∧ t = s.unknownStep) ∨
    (∃ i u, s.halted = false ∧ s.fetchable = true ∧ decode s.fetchedWord = .instr i ∧
      exec i s.beginStep = .next u ∧ t = u.finishStep) := by
  unfold step at h
  split at h
  · next hh => cases h; exact .inl ⟨hh, rfl⟩
  · next hh =>
    have hh : s.halted = false := by simpa using hh
    split at h
    · next hf =>
      split at h
      · next i hd =>
        obtain ⟨u, hu⟩ := exec_answers_next i s.beginStep
        rw [hu] at h
        simp only [finishResult] at h
        cases h
        exact .inr (.inr (.inr ⟨i, u, hh, hf, hd, hu, rfl⟩))
      · next hd => cases h; exact .inr (.inr (.inl ⟨hh, hf, hd, rfl⟩))
    · next hf => cases h; exact .inr (.inl ⟨hh, by simpa using hf, rfl⟩)

/-- What `withFetchWord` does to the whole state: it places the table word. -/
theorem withFetchWord_eq (s : State) (nbits w : Nat) : s.withFetchWord nbits w = s.placeWord (tableWord nbits w) := rfl

end Sys2Proof.Machine
end

