-- ==== Sys2Proof/Laws/Frame.lean ====
section
/-! SUPPORT. The frame of each shared update, the step from each of its four kinds of state, and what `exec`
does to FAULT and to the inputs. -/

namespace Sys2Proof.Machine

/-! ### Frames of the updates -/

/-- Nothing of memory and no component changes: a register write. -/
theorem frame_setV (s : State) (x : Reg) (b : Byte) : Frame [x] 0 0 [] s (s.setV x b) :=
  ⟨fun r hr => State.readV_setV_ne s x r b (by simpa using hr), fun _ _ => rfl, fun c _ => by cases c <;> rfl⟩

/-- 8XY4, 8XY5, 8XY7: the destination, then the flag. -/
theorem frame_setV_setFlag (s : State) (x : Reg) (b f : Byte) :
    Frame [x, regVF] 0 0 [] s ((s.setV x b).setFlag f) := by
  refine ⟨fun r hr => ?_, fun _ _ => rfl, fun c _ => by cases c <;> rfl⟩
  simp only [List.mem_cons, List.not_mem_nil, or_false, not_or] at hr
  rw [State.setFlag_eq, State.readV_setV_ne _ _ _ _ hr.2, State.readV_setV_ne _ _ _ _ hr.1]

/-- 8XY6, 8XYE: the flag, then the destination. -/
theorem frame_setFlag_setV (s : State) (x : Reg) (b f : Byte) :
    Frame [x, regVF] 0 0 [] s ((s.setFlag f).setV x b) := by
  refine ⟨fun r hr => ?_, fun _ _ => rfl, fun c _ => by cases c <;> rfl⟩
  simp only [List.mem_cons, List.not_mem_nil, or_false, not_or] at hr
  rw [State.setFlag_eq, State.readV_setV_ne _ _ _ _ hr.1, State.readV_setV_ne _ _ _ _ hr.2]

/-- A frame from the components alone: V and MEM are the same data. -/
theorem frame_of_eq {s t : State} {comps : List Component} (hv : t.v = s.v) (hm : t.mem = s.mem)
    (hc : ∀ c, c ∉ comps → c.same s t) : Frame [] 0 0 comps s t :=
  ⟨fun r _ => by simp [State.readV, hv], fun a _ => by rw [hm], hc⟩

theorem frame_setPc (s : State) (a : Word) : Frame [] 0 0 [.pc] s (s.setPc a) :=
  frame_of_eq rfl rfl fun c hc => by cases c <;> first | rfl | simp at hc

theorem frame_setI (s : State) (a : Word) : Frame [] 0 0 [.i] s (s.setI a) :=
  frame_of_eq rfl rfl fun c hc => by cases c <;> first | rfl | simp at hc

theorem frame_setDt (s : State) (b : Byte) : Frame [] 0 0 [.dt] s (s.setDt b) :=
  frame_of_eq rfl rfl fun c hc => by cases c <;> first | rfl | simp at hc

theorem frame_setSt (s : State) (b : Byte) : Frame [] 0 0 [.st] s (s.setSt b) :=
  frame_of_eq rfl rfl fun c hc => by cases c <;> first | rfl | simp at hc

/-- A store changes the stored bytes and nothing else. -/
theorem frame_writeBytes (s : State) (a : Nat) (bs : List Byte) :
    Frame [] a bs.length [] s (s.setMem (s.mem.writeBytes a bs)) :=
  ⟨fun _ _ => rfl, fun _ h => Memory.read_writeBytes_outside _ _ _ h, fun c _ => by cases c <;> rfl⟩

/-- FX65 changes V0 to V[x] and nothing else. -/
theorem frame_loadRegs (s : State) (x : Reg) :
    Frame ((List.finRange 16).filter fun r => decide (r ≤ x)) 0 0 [] s (s.loadRegs x) := by
  refine ⟨fun r hr => ?_, fun a _ => by rw [State.loadRegs_mem], fun c _ => by cases c <;> simp [Component.same]⟩
  rw [State.readV_loadRegs, if_neg]
  simpa using hr

/-- A pop and a jump to what it answers change PC and SP. -/
theorem frame_pop {s t : State} {a : Word} (h : s.pop = some (a, t)) : Frame [] 0 0 [.pc, .sp] s (t.setPc a) := by
  obtain ⟨-, e, -⟩ := State.pop_spec s h
  rw [e]
  exact frame_of_eq rfl rfl fun c hc => by cases c <;> first | rfl | simp at hc

/-- A push and a jump change PC, STACK and SP. -/
theorem frame_push {s t : State} {a b : Word} (h : s.push a = some t) :
    Frame [] 0 0 [.pc, .stack, .sp] s (t.setPc b) := by
  obtain ⟨-, e, -⟩ := State.push_spec s h
  rw [e]
  exact frame_of_eq rfl rfl fun c hc => by cases c <;> first | rfl | simp at hc

/-- What DXYN writes: VF, FB and STATUS. -/
theorem frame_draw (s : State) (f : Byte) (fb : Framebuffer) (x : Status) :
    Frame [regVF] 0 0 [.fb, .status] s (((s.setFlag f).setFb fb).setStatus x) := by
  refine ⟨fun r hr => ?_, fun _ _ => rfl, fun c hc => by cases c <;> first | rfl | simp at hc⟩
  simp only [List.mem_cons, List.not_mem_nil, or_false] at hr
  simp [State.readV_setV_ne _ _ _ _ hr]

/-! ### The step from each kind of state (40_cycle.md R81) -/

theorem step_of_halted {s : State} (h : s.halted = true) : step s = .next s.haltedStep := by simp [step, h]

theorem step_of_unfetchable {s : State} (h : s.halted = false) (hp : 0xFFF ≤ s.pc.toNat) :
    step s = .next s.fetchFaultStep := by
  have : s.fetchable = false := by rw [← Bool.not_eq_true, State.fetchable_iff]; omega
  simp [step, h, this]

theorem step_of_unknown {s : State} (h : s.halted = false) (hp : s.pc.toNat ≤ 0xFFE)
    (hd : decode (s.mem.readWord s.pc.toNat) = .unknown) : step s = .next s.unknownStep := by
  simp [step, h, (State.fetchable_iff s).2 hp, State.fetchedWord, hd]

theorem step_of_instr {s : State} {i : Instr} (h : s.halted = false) (hp : s.pc.toNat ≤ 0xFFE)
    (hd : decode (s.mem.readWord s.pc.toNat) = .instr i) : step s = finishResult (exec i s.beginStep) := by
  simp [step, h, (State.fetchable_iff s).2 hp, State.fetchedWord, hd]

/-- A fault raised in execute is the fault entry of the state the step began in (60_exceptions.md R204). -/
theorem raiseFault_beginStep (s : State) (c : FaultCause) (a : Word) :
    s.beginStep.raiseFault c a = s.enterFault c s.fetchedWord a := by
  have : s.pc + 2 - 2 = s.pc := by simp
  simp only [State.raiseFault, State.beginStep, State.setPc, State.enterFault, State.fetchedWord, this]

/-! ### What exec does to FAULT and to the inputs -/

/-- A property of the state the meaning answers is one of the state `exec` answers. -/
theorem exec_elim {P : State → Prop} {i : Instr} {s t u : State} (h : exec i s = .next t) (e : exec i s = .next u)
    (hu : P u) : P t := by
  rw [h] at e
  cases e
  exact hu

theorem guardRange_env {s t : State} (n : Nat) (h : t.env = s.env) : (s.guardRange n t).env = s.env := by
  rcases State.guardRange_cases s n t with e | e <;> rw [e]
  · exact h
  · rfl

theorem guardKey_env {s t : State} (x : Reg) (h : t.env = s.env) : (s.guardKey x t).env = s.env := by
  rcases State.guardKey_cases s x t with e | e <;> rw [e]
  · exact h
  · rfl

/-- The meanings do not touch the inputs. -/
theorem exec_env {i : Instr} {s t : State} (h : exec i s = .next t) : t.env = s.env := by
  cases i with
  | ret =>
    refine exec_elim (P := fun u => u.env = s.env) h rfl ?_
    cases hp : s.pop with
    | none => rfl
    | some p => exact (frame_pop (a := p.1) (t := p.2) hp).2.2 .env (by decide)
  | call nnn =>
    refine exec_elim (P := fun u => u.env = s.env) h rfl ?_
    cases hp : s.push s.pc with
    | none => rfl
    | some p => exact (frame_push hp).2.2 .env (by decide)
  | ldKey x =>
    refine exec_elim (P := fun u => u.env = s.env) h rfl ?_
    cases lowestKey s.input <;> rfl
  | drw x y n => exact exec_elim (P := fun u => u.env = s.env) h rfl (guardRange_env _ rfl)
  | bcd x => exact exec_elim (P := fun u => u.env = s.env) h rfl (guardRange_env _ rfl)
  | store x => exact exec_elim (P := fun u => u.env = s.env) h rfl (guardRange_env _ rfl)
  | load x => exact exec_elim (P := fun u => u.env = s.env) h rfl (guardRange_env _ rfl)
  | skp x => exact exec_elim (P := fun u => u.env = s.env) h rfl (guardKey_env _ rfl)
  | sknp x => exact exec_elim (P := fun u => u.env = s.env) h rfl (guardKey_env _ rfl)
  | _ => exact exec_elim (P := fun u => u.env = s.env) h rfl rfl

/-- `u` is the fault entry the instruction is expected to raise, or leaves FAULT alone where none is. -/
def RaisesExpected (i : Instr) (s u : State) : Prop :=
  match expectedFault i s with
  | some f => u = s.raiseFault f.1 f.2
  | none => u.fault = s.fault

theorem guardRange_raises {i : Instr} {s t : State} {n : Nat}
    (hi : expectedFault i s = if n ≠ 0 ∧ 0x1000 < s.i.toNat + n then some (.addressOutOfRange, missingAddress s.i) else none)
    (ht : t.fault = s.fault) : RaisesExpected i s (s.guardRange n t) := by
  unfold RaisesExpected
  rw [hi]
  by_cases h : n ≠ 0 ∧ 0x1000 < s.i.toNat + n
  · simp only [if_pos h]
    exact State.guardRange_faults s t h.1 h.2
  · simp only [if_neg h]
    rw [State.guardRange_admitted s t (by omega)]
    exact ht

theorem guardKey_raises {i : Instr} {s t : State} {x : Reg}
    (hi : expectedFault i s = if 16 ≤ (s.readV x).toNat then some (.keyIndexOutOfRange, (s.readV x).setWidth 16) else none)
    (ht : t.fault = s.fault) : RaisesExpected i s (s.guardKey x t) := by
  unfold RaisesExpected
  rw [hi]
  by_cases h : 16 ≤ (s.readV x).toNat
  · simp only [if_pos h]
    exact State.guardKey_faults s t h
  · simp only [if_neg h]
    rw [State.guardKey_index s t (by omega)]
    exact ht

/-- The execute phase raises what `expectedFault` says, and only that (60_exceptions.md R201). -/
theorem exec_raises {i : Instr} {s t : State} (h : exec i s = .next t) : RaisesExpected i s t := by
  cases i with
  | ret =>
    refine exec_elim h rfl ?_
    cases hp : s.pop with
    | none =>
      have := (State.pop_eq_none_iff s).1 hp
      simp [RaisesExpected, expectedFault, this]
    | some p =>
      obtain ⟨h1, h2, -⟩ := State.pop_spec s (a := p.1) (t := p.2) hp
      have : s.sp ≠ 0 := fun e => by rw [e] at h1; simp at h1
      simp only [RaisesExpected, expectedFault, Fin.val_eq_zero_iff, this, if_false, State.setPc_fault]
      rw [h2]
  | call nnn =>
    refine exec_elim h rfl ?_
    cases hp : s.push s.pc with
    | none =>
      have := (State.push_eq_none_iff s _).1 hp
      simp [RaisesExpected, expectedFault, this]
    | some u =>
      have : s.sp.val ≠ 16 := fun e => by rw [(State.push_eq_none_iff s _).2 (Fin.ext e)] at hp; cases hp
      simp only [RaisesExpected, expectedFault, this, if_false, State.setPc_fault]
      rw [(State.push_spec s hp).2.1]
  | ldKey x =>
    refine exec_elim h rfl ?_
    cases lowestKey s.input <;> rfl
  | drw x y n =>
    refine exec_elim h rfl (guardRange_raises ?_ rfl)
    simp only [expectedFault]
    congr 1
    simp only [eq_iff_iff]
    omega
  | bcd x =>
    refine exec_elim h rfl (guardRange_raises ?_ rfl)
    simp only [expectedFault]
    congr 1
    simp only [eq_iff_iff]
    omega
  | store x =>
    refine exec_elim h rfl (guardRange_raises ?_ rfl)
    simp only [expectedFault]
    congr 1
    simp only [eq_iff_iff]
    omega
  | load x =>
    refine exec_elim h rfl (guardRange_raises ?_ rfl)
    simp only [expectedFault]
    congr 1
    simp only [eq_iff_iff]
    omega
  | skp x => exact exec_elim h rfl (guardKey_raises rfl rfl)
  | sknp x => exact exec_elim h rfl (guardKey_raises rfl rfl)
  | _ => exact exec_elim (P := RaisesExpected _ s) h rfl rfl

end Sys2Proof.Machine
end

