-- ==== Sys2Proof/Laws/Framebuffer.lean ====
section
/-! SUPPORT. The framebuffer: a pixel after a toggle, and what a whole sprite draw does to each pixel and to
the collision bit, so that no proof unfolds the drawing loops. -/

namespace Sys2Proof.Machine.Framebuffer

/-- A row of the framebuffer is a row of its list. -/
theorem pixel_eq (fb : Framebuffer) (x : Nat) {y : Nat} (h : y < 32) : pixel fb x y = (fb[y]).getLsbD x := by
  unfold pixel
  rw [List.getD_eq_getElem _ _ (by simpa using h)]
  simp

/-- Below the grid there is no pixel. -/
theorem pixel_below (fb : Framebuffer) (x : Nat) {y : Nat} (h : 32 ≤ y) : pixel fb x y = false := by
  simp [pixel, List.getD, h]

/-- Right of the grid there is no pixel. -/
theorem pixel_right (fb : Framebuffer) {x : Nat} (y : Nat) (h : 64 ≤ x) : pixel fb x y = false :=
  BitVec.getLsbD_of_ge _ _ h

@[simp] theorem pixel_allOff (x y : Nat) : pixel allOff x y = false := by
  by_cases h : y < 32
  · simp [pixel_eq _ _ h, allOff]
  · exact pixel_below _ _ (by omega)

/-- Two framebuffers that agree on the 2048 pixels are equal. -/
theorem eq_of_pixels {fb fb' : Framebuffer} (h : ∀ x y, x < 64 → y < 32 → pixel fb x y = pixel fb' x y) :
    fb = fb' := by
  apply Vector.ext
  intro y hy
  apply BitVec.eq_of_getLsbD_eq
  intro x hx
  have := h x y hx hy
  rwa [pixel_eq _ _ hy, pixel_eq _ _ hy] at this

/-- A toggle changes one pixel and no other. -/
theorem pixel_toggle (fb : Framebuffer) {x y : Nat} (hx : x < 64) (hy : y < 32) (px py : Nat) :
    pixel (toggle fb x y) px py = (pixel fb px py ^^ decide (px = x ∧ py = y)) := by
  by_cases hp : py < 32
  · rw [pixel_eq _ _ hp, pixel_eq _ _ hp, toggle, dif_pos hy]
    rw [Vector.getElem_set]
    split
    · next e => subst e; simp [BitVec.getLsbD_twoPow, hx, eq_comm]
    · next e => simp [Ne.symm e]
  · have : py ≠ y := by omega
    rw [pixel_below _ _ (by omega), pixel_below _ _ (by omega)]
    simp [this]

/-! ### One sprite bit -/

theorem drawBit_pixel (d : Drawing) (bit : Bool) (x y px py : Nat) :
    pixel (drawBit d bit x y).1 px py =
      (pixel d.1 px py ^^ (decide (px ≤ 63 ∧ py ≤ 31) && decide (px = x ∧ py = y) && bit)) := by
  unfold drawBit
  split
  · next h =>
    rw [pixel_toggle d.1 (by omega) (by omega)]
    by_cases e : px = x ∧ py = y
    · obtain ⟨rfl, rfl⟩ := e; simp [h]
    · simp [e]
  · next h =>
    by_cases e : px = x ∧ py = y
    · obtain ⟨rfl, rfl⟩ := e
      cases bit
      · simp
      · have : ¬ (px ≤ 63 ∧ py ≤ 31) := fun c => h ⟨c.1, c.2, rfl⟩
        rw [decide_eq_false this]; simp
    · rw [decide_eq_false e]; simp

theorem drawBit_hit (d : Drawing) (bit : Bool) (x y : Nat) :
    (drawBit d bit x y).2 = (d.2 || (decide (x ≤ 63 ∧ y ≤ 31) && bit && pixel d.1 x y)) := by
  unfold drawBit
  split
  · next h => simp [h]
  · next h =>
    cases bit
    · simp
    · have : ¬ (x ≤ 63 ∧ y ≤ 31) := fun c => h ⟨c.1, c.2, rfl⟩
      simp [this]

/-! ### One sprite row -/

/-- The columns `c` to `c + n - 1` of a sprite row cover the pixel (px, py). -/
theorem drawCols_pixel (row : Byte) (x0 y : Nat) : ∀ (n c : Nat) (d : Drawing) (px py : Nat),
    pixel (drawCols d row x0 y c n).1 px py =
      (pixel d.1 px py ^^ (decide (px ≤ 63 ∧ py ≤ 31) && decide (x0 + c ≤ px ∧ px < x0 + c + n ∧ py = y) &&
        row.getLsbD (7 - (px - x0))))
  | 0, c, d, px, py => by
    have : ¬ (x0 + c ≤ px ∧ px < x0 + c + 0 ∧ py = y) := by omega
    rw [decide_eq_false this]
    simp [drawCols]
  | n + 1, c, d, px, py => by
    rw [drawCols, drawCols_pixel row x0 y n (c + 1), drawBit_pixel]
    by_cases h : px = x0 + c ∧ py = y
    · obtain ⟨rfl, rfl⟩ := h
      have h1 : ¬ (x0 + (c + 1) ≤ x0 + c ∧ x0 + c < x0 + (c + 1) + n ∧ py = py) := by omega
      have h2 : x0 + c ≤ x0 + c ∧ x0 + c < x0 + c + (n + 1) ∧ py = py := by omega
      have h3 : x0 + c - x0 = c := by omega
      rw [decide_eq_false h1, decide_eq_true h2, h3]
      simp
    · have : (x0 + (c + 1) ≤ px ∧ px < x0 + (c + 1) + n ∧ py = y) ↔ (x0 + c ≤ px ∧ px < x0 + c + (n + 1) ∧ py = y) := by
        omega
      simp [h, this]

theorem drawCols_hit (row : Byte) (x0 y : Nat) : ∀ (n c : Nat) (d : Drawing),
    (drawCols d row x0 y c n).2 = true ↔
      d.2 = true ∨ ∃ px, px ≤ 63 ∧ y ≤ 31 ∧ x0 + c ≤ px ∧ px < x0 + c + n ∧ row.getLsbD (7 - (px - x0)) = true ∧
        pixel d.1 px y = true
  | 0, c, d => by
    simp only [drawCols]
    constructor
    · exact .inl
    · rintro (h | ⟨px, _, _, h1, h2, _⟩)
      · exact h
      · omega
  | n + 1, c, d => by
    rw [drawCols, drawCols_hit row x0 y n (c + 1), drawBit_hit]
    have hp : ∀ px, x0 + (c + 1) ≤ px →
        pixel (drawBit d (row.getLsbD (7 - c)) (x0 + c) y).1 px y = pixel d.1 px y := by
      intro px h
      rw [drawBit_pixel]
      have : ¬ (px = x0 + c ∧ y = y) := by omega
      rw [decide_eq_false this]; simp
    constructor
    · rintro (h | ⟨px, h1, h2, h3, h4, h5, h6⟩)
      · simp only [Bool.or_eq_true, Bool.and_eq_true, decide_eq_true_eq] at h
        rcases h with h | ⟨⟨h1, h2⟩, h3⟩
        · exact .inl h
        · exact .inr ⟨x0 + c, h1.1, h1.2, by omega, by omega, by rwa [show x0 + c - x0 = c by omega], h3⟩
      · exact .inr ⟨px, h1, h2, by omega, by omega, h5, by rwa [hp px h3] at h6⟩
    · rintro (h | ⟨px, h1, h2, h3, h4, h5, h6⟩)
      · exact .inl (by simp [h])
      · by_cases e : px = x0 + c
        · subst e
          rw [show x0 + c - x0 = c by omega] at h5
          exact .inl (by simp [h1, h2, h5, h6])
        · exact .inr ⟨px, h1, h2, by omega, by omega, h5, by rwa [hp px (by omega)]⟩

/-! ### The whole sprite -/

/-- A sprite of the rows `row :: rows` covers what its first row and the rest, one row lower, cover. -/
theorem spriteCovers_cons (row : Byte) (rows : List Byte) (x0 y0 x y : Nat) :
    spriteCovers (row :: rows) x0 y0 x y =
      ((decide (x0 + 0 ≤ x ∧ x < x0 + 0 + 8 ∧ y = y0) && row.getLsbD (7 - (x - x0))) ||
        spriteCovers rows x0 (y0 + 1) x y) := by
  unfold spriteCovers
  by_cases hx : x0 ≤ x ∧ x ≤ x0 + 7
  · rcases Nat.lt_trichotomy y y0 with h | h | h
    · have a1 : ¬ y0 ≤ y := by omega
      have a2 : ¬ y0 + 1 ≤ y := by omega
      have a3 : ¬ y = y0 := by omega
      simp [a1, a2, a3]
    · subst h
      have a2 : ¬ y + 1 ≤ y := by omega
      have a4 : x < x0 + 8 := by omega
      simp [hx, a4]
    · have a1 : y0 ≤ y := by omega
      have a2 : y0 + 1 ≤ y := by omega
      have a3 : ¬ y = y0 := by omega
      have a4 : y - y0 = (y - (y0 + 1)) + 1 := by omega
      simp [hx, a1, a2, a3, a4]
  · have a1 : ¬ (x0 ≤ x ∧ x ≤ x0 + 7 ∧ y0 ≤ y) := fun c => hx ⟨c.1, c.2.1⟩
    have a2 : ¬ (x0 ≤ x ∧ x ≤ x0 + 7 ∧ y0 + 1 ≤ y) := fun c => hx ⟨c.1, c.2.1⟩
    have a3 : ¬ (x0 + 0 ≤ x ∧ x < x0 + 0 + 8 ∧ y = y0) := by omega
    rw [decide_eq_false a1, decide_eq_false a2, decide_eq_false a3]; simp

theorem spriteCovers_nil (x0 y0 x y : Nat) : spriteCovers [] x0 y0 x y = false := by simp [spriteCovers]

/-- No sprite covers a pixel above its origin row. -/
theorem spriteCovers_above (rows : List Byte) (x0 y0 x y : Nat) (h : y < y0) :
    spriteCovers rows x0 y0 x y = false := by
  have : ¬ (x0 ≤ x ∧ x ≤ x0 + 7 ∧ y0 ≤ y) := by omega
  simp [spriteCovers, this]

theorem drawRows_pixel (x0 : Nat) : ∀ (rows : List Byte) (d : Drawing) (y px py : Nat),
    pixel (drawRows d x0 y rows).1 px py =
      (pixel d.1 px py ^^ (decide (px ≤ 63 ∧ py ≤ 31) && spriteCovers rows x0 y px py))
  | [], d, y, px, py => by simp [drawRows, spriteCovers_nil]
  | row :: rows, d, y, px, py => by
    rw [drawRows, drawRows_pixel x0 rows, drawCols_pixel, spriteCovers_cons]
    by_cases h : py = y
    · subst h
      rw [spriteCovers_above rows x0 (py + 1) px py (by omega)]
      simp [Bool.and_assoc]
    · have : ¬ (x0 + 0 ≤ px ∧ px < x0 + 0 + 8 ∧ py = y) := fun c => h c.2.2
      rw [decide_eq_false this]; simp

theorem drawRows_hit (x0 : Nat) : ∀ (rows : List Byte) (d : Drawing) (y : Nat),
    (drawRows d x0 y rows).2 = true ↔
      d.2 = true ∨ ∃ px py, px ≤ 63 ∧ py ≤ 31 ∧ spriteCovers rows x0 y px py = true ∧ pixel d.1 px py = true
  | [], d, y => by simp [drawRows, spriteCovers_nil]
  | row :: rows, d, y => by
    rw [drawRows, drawRows_hit x0 rows, drawCols_hit]
    have hp : ∀ px py, y < py → pixel (drawCols d row x0 y 0 8).1 px py = pixel d.1 px py := by
      intro px py h
      rw [drawCols_pixel]
      have : ¬ (x0 + 0 ≤ px ∧ px < x0 + 0 + 8 ∧ py = y) := by omega
      rw [decide_eq_false this]; simp
    constructor
    · rintro ((h | ⟨px, h1, h2, h3, h4, h5, h6⟩) | ⟨px, py, h1, h2, h3, h4⟩)
      · exact .inl h
      · exact .inr ⟨px, y, h1, h2, by rw [spriteCovers_cons]; simp [h5]; omega, h6⟩
      · have hy : y < py := by
          by_contra c
          rw [spriteCovers_above rows x0 (y + 1) px py (by omega)] at h3
          exact absurd h3 (by simp)
        exact .inr ⟨px, py, h1, h2, by rw [spriteCovers_cons]; simp [h3], by rwa [hp px py hy] at h4⟩
    · rintro (h | ⟨px, py, h1, h2, h3, h4⟩)
      · exact .inl (.inl h)
      · rw [spriteCovers_cons, Bool.or_eq_true, Bool.and_eq_true, decide_eq_true_eq] at h3
        rcases h3 with ⟨⟨a, b, rfl⟩, c⟩ | h3
        · exact .inl (.inr ⟨px, h1, h2, a, b, c, h4⟩)
        · have hy : y < py := by
            by_contra c
            rw [spriteCovers_above rows x0 (y + 1) px py (by omega)] at h3
            exact absurd h3 (by simp)
          exact .inr ⟨px, py, h1, h2, h3, by rwa [hp px py hy]⟩

/-- Every pixel after a draw: toggled where the sprite has a set bit on-screen, else as before. -/
theorem drawSprite_pixel (fb : Framebuffer) (x0 y0 : Nat) (rows : List Byte) (px py : Nat) :
    pixel (drawSprite fb x0 y0 rows).1 px py =
      (pixel fb px py ^^ (decide (px ≤ 63 ∧ py ≤ 31) && spriteCovers rows x0 y0 px py)) :=
  drawRows_pixel x0 rows (fb, false) y0 px py

/-- The collision bit of a draw: some set sprite bit landed on a pixel that was On before it. -/
theorem drawSprite_hit (fb : Framebuffer) (x0 y0 : Nat) (rows : List Byte) :
    (drawSprite fb x0 y0 rows).2 = true ↔
      ∃ px py, px ≤ 63 ∧ py ≤ 31 ∧ spriteCovers rows x0 y0 px py = true ∧ pixel fb px py = true := by
  simpa [drawSprite] using drawRows_hit x0 rows (fb, false) y0

/-- A set bit of the sprite, in terms of its row and column (R160). -/
theorem spriteCovers_iff (rows : List Byte) (x0 y0 x y : Nat) :
    spriteCovers rows x0 y0 x y = true ↔
      ∃ r c, r < rows.length ∧ c ≤ 7 ∧ x = x0 + c ∧ y = y0 + r ∧ (rows.getD r 0).getLsbD (7 - c) = true := by
  simp only [spriteCovers, Bool.and_eq_true, decide_eq_true_eq]
  constructor
  · rintro ⟨⟨h1, h2, h3⟩, h4⟩
    refine ⟨y - y0, x - x0, ?_, by omega, by omega, by omega, h4⟩
    by_contra c
    have : rows.length ≤ y - y0 := by omega
    rw [List.getD_eq_default _ _ this] at h4
    simp at h4
  · rintro ⟨r, c, h1, h2, rfl, rfl, h5⟩
    refine ⟨by omega, ?_⟩
    rwa [show y0 + r - y0 = r by omega, show x0 + c - x0 = c by omega]

end Sys2Proof.Machine.Framebuffer
end

