-- ==== Sys2Proof/Laws/PerInstr.lean ====
section
/-! SUPPORT. Statements about every instruction, one lemma per constructor: the word the encoder builds is
selected by the instruction's own row of the opcode map (30_encoding.md R65: `instr & mask = match`). -/

namespace Sys2Proof.Laws

/-- An operand confined to bits the mask does not fix leaves the masked word alone. -/
theorem or_and_mask {base z mask : Word} (h : z &&& mask = 0#16) : (base ||| z) &&& mask = base &&& mask := by
  rw [BitVec.and_comm, BitVec.and_or_distrib_left, BitVec.and_comm mask z, h, BitVec.or_zero, BitVec.and_comm]

theorem zextNNN_mask (nnn : Addr12) : nnn.setWidth 16 &&& 0xF000#16 = 0#16 := by
  apply word_eq_of_fields <;> simp [opField, xField, yField, nField, BitVec.extractLsb'_and]
  have : (nnn.setWidth 16).extractLsb' 12 4 = 0#4 := opField_zextNNN nnn
  simp [this]

theorem zextNN_mask (nn : Byte) : nn.setWidth 16 &&& 0xF000#16 = 0#16 := by
  apply word_eq_of_fields <;> simp [opField, xField, yField, nField, BitVec.extractLsb'_and]
  have : (nn.setWidth 16).extractLsb' 12 4 = 0#4 := opField_zextNN nn
  simp [this]

theorem shiftX_mask {mask : Word} (h : mask &&& 0x0F00#16 = 0#16) (x : Reg) :
    BitVec.ofNat 16 x.val <<< 8 &&& mask = 0#16 := by
  have hx : BitVec.ofNat 16 x.val <<< 8 = (BitVec.ofNat 16 x.val <<< 8) &&& 0x0F00#16 := by revert x; decide
  rw [hx, BitVec.and_assoc, BitVec.and_comm _ mask, h, BitVec.and_zero]

theorem shiftY_mask {mask : Word} (h : mask &&& 0x00F0#16 = 0#16) (y : Reg) :
    BitVec.ofNat 16 y.val <<< 4 &&& mask = 0#16 := by
  have hy : BitVec.ofNat 16 y.val <<< 4 = (BitVec.ofNat 16 y.val <<< 4) &&& 0x00F0#16 := by revert y; decide
  rw [hy, BitVec.and_assoc, BitVec.and_comm _ mask, h, BitVec.and_zero]

theorem ofN_mask (n : Count4) : BitVec.ofNat 16 n.val &&& 0xF000#16 = 0#16 := by revert n; decide

theorem wordNNN_mask (base : Word) (nnn : Addr12) : wordNNN base nnn &&& 0xF000#16 = base &&& 0xF000#16 :=
  or_and_mask (zextNNN_mask nnn)

theorem wordX_mask {mask : Word} (h : mask &&& 0x0F00#16 = 0#16) (base : Word) (x : Reg) :
    wordX base x &&& mask = base &&& mask := or_and_mask (shiftX_mask h x)

theorem wordXNN_mask (base : Word) (x : Reg) (nn : Byte) : wordXNN base x nn &&& 0xF000#16 = base &&& 0xF000#16 := by
  rw [wordXNN, or_and_mask (zextNN_mask nn), wordX_mask (by decide)]

theorem wordXY_mask {mask : Word} (h : mask &&& 0x0FF0#16 = 0#16) (base : Word) (x y : Reg) :
    wordXY base x y &&& mask = base &&& mask := by
  have hx : mask &&& 0x0F00#16 = 0#16 := by
    rw [show 0x0F00#16 = 0x0FF0#16 &&& 0x0F00#16 by decide, ← BitVec.and_assoc, h, BitVec.zero_and]
  have hy : mask &&& 0x00F0#16 = 0#16 := by
    rw [show 0x00F0#16 = 0x0FF0#16 &&& 0x00F0#16 by decide, ← BitVec.and_assoc, h, BitVec.zero_and]
  rw [wordXY, or_and_mask (shiftY_mask hy y), wordX_mask hx]

theorem wordXYN_mask (base : Word) (x y : Reg) (n : Count4) : wordXYN base x y n &&& 0xF000#16 = base &&& 0xF000#16 := by
  rw [wordXYN, or_and_mask (ofN_mask n), wordXY_mask (by decide)]

namespace EncodeRow

/-- The opcode map has a row named as the instruction, and it selects the instruction's word. -/
def Statement (i : Instr) : Prop := ∃ r ∈ opcodeRows, r.pattern = i.pattern ∧ r.selects (encode i) = true

theorem cls : Statement .cls :=
  ⟨⟨"00E0", 0xFFFF, 0x00E0⟩, by decide, rfl, by decide⟩

theorem ret : Statement .ret :=
  ⟨⟨"00EE", 0xFFFF, 0x00EE⟩, by decide, rfl, by decide⟩

theorem jp (nnn : Addr12) : Statement (.jp nnn) :=
  ⟨⟨"1NNN", 0xF000, 0x1000⟩, by decide, rfl, decide_eq_true (wordNNN_mask 0x1000#16 nnn)⟩

theorem call (nnn : Addr12) : Statement (.call nnn) :=
  ⟨⟨"2NNN", 0xF000, 0x2000⟩, by decide, rfl, decide_eq_true (wordNNN_mask 0x2000#16 nnn)⟩

theorem seImm (x : Reg) (nn : Byte) : Statement (.seImm x nn) :=
  ⟨⟨"3XNN", 0xF000, 0x3000⟩, by decide, rfl, decide_eq_true (wordXNN_mask 0x3000#16 x nn)⟩

theorem sneImm (x : Reg) (nn : Byte) : Statement (.sneImm x nn) :=
  ⟨⟨"4XNN", 0xF000, 0x4000⟩, by decide, rfl, decide_eq_true (wordXNN_mask 0x4000#16 x nn)⟩

theorem seReg (x y : Reg) : Statement (.seReg x y) :=
  ⟨⟨"5XY0", 0xF00F, 0x5000⟩, by decide, rfl, decide_eq_true (wordXY_mask (mask := 0xF00F#16) (by decide) 0x5000#16 x y)⟩

theorem ldImm (x : Reg) (nn : Byte) : Statement (.ldImm x nn) :=
  ⟨⟨"6XNN", 0xF000, 0x6000⟩, by decide, rfl, decide_eq_true (wordXNN_mask 0x6000#16 x nn)⟩

theorem addImm (x : Reg) (nn : Byte) : Statement (.addImm x nn) :=
  ⟨⟨"7XNN", 0xF000, 0x7000⟩, by decide, rfl, decide_eq_true (wordXNN_mask 0x7000#16 x nn)⟩

theorem ldReg (x y : Reg) : Statement (.ldReg x y) :=
  ⟨⟨"8XY0", 0xF00F, 0x8000⟩, by decide, rfl, decide_eq_true (wordXY_mask (mask := 0xF00F#16) (by decide) 0x8000#16 x y)⟩

theorem or (x y : Reg) : Statement (.or x y) :=
  ⟨⟨"8XY1", 0xF00F, 0x8001⟩, by decide, rfl, decide_eq_true (wordXY_mask (mask := 0xF00F#16) (by decide) 0x8001#16 x y)⟩

theorem and (x y : Reg) : Statement (.and x y) :=
  ⟨⟨"8XY2", 0xF00F, 0x8002⟩, by decide, rfl, decide_eq_true (wordXY_mask (mask := 0xF00F#16) (by decide) 0x8002#16 x y)⟩

theorem xor (x y : Reg) : Statement (.xor x y) :=
  ⟨⟨"8XY3", 0xF00F, 0x8003⟩, by decide, rfl, decide_eq_true (wordXY_mask (mask := 0xF00F#16) (by decide) 0x8003#16 x y)⟩

theorem addReg (x y : Reg) : Statement (.addReg x y) :=
  ⟨⟨"8XY4", 0xF00F, 0x8004⟩, by decide, rfl, decide_eq_true (wordXY_mask (mask := 0xF00F#16) (by decide) 0x8004#16 x y)⟩

theorem sub (x y : Reg) : Statement (.sub x y) :=
  ⟨⟨"8XY5", 0xF00F, 0x8005⟩, by decide, rfl, decide_eq_true (wordXY_mask (mask := 0xF00F#16) (by decide) 0x8005#16 x y)⟩

theorem shr (x : Reg) : Statement (.shr x) :=
  ⟨⟨"8XY6", 0xF00F, 0x8006⟩, by decide, rfl, decide_eq_true (wordX_mask (mask := 0xF00F#16) (by decide) 0x8006#16 x)⟩

theorem subn (x y : Reg) : Statement (.subn x y) :=
  ⟨⟨"8XY7", 0xF00F, 0x8007⟩, by decide, rfl, decide_eq_true (wordXY_mask (mask := 0xF00F#16) (by decide) 0x8007#16 x y)⟩

theorem shl (x : Reg) : Statement (.shl x) :=
  ⟨⟨"8XYE", 0xF00F, 0x800E⟩, by decide, rfl, decide_eq_true (wordX_mask (mask := 0xF00F#16) (by decide) 0x800E#16 x)⟩

theorem sneReg (x y : Reg) : Statement (.sneReg x y) :=
  ⟨⟨"9XY0", 0xF00F, 0x9000⟩, by decide, rfl, decide_eq_true (wordXY_mask (mask := 0xF00F#16) (by decide) 0x9000#16 x y)⟩

theorem ldI (nnn : Addr12) : Statement (.ldI nnn) :=
  ⟨⟨"ANNN", 0xF000, 0xA000⟩, by decide, rfl, decide_eq_true (wordNNN_mask 0xA000#16 nnn)⟩

theorem jpV0 (nnn : Addr12) : Statement (.jpV0 nnn) :=
  ⟨⟨"BNNN", 0xF000, 0xB000⟩, by decide, rfl, decide_eq_true (wordNNN_mask 0xB000#16 nnn)⟩

theorem rnd (x : Reg) (nn : Byte) : Statement (.rnd x nn) :=
  ⟨⟨"CXNN", 0xF000, 0xC000⟩, by decide, rfl, decide_eq_true (wordXNN_mask 0xC000#16 x nn)⟩

theorem drw (x y : Reg) (n : Count4) : Statement (.drw x y n) :=
  ⟨⟨"DXYN", 0xF000, 0xD000⟩, by decide, rfl, decide_eq_true (wordXYN_mask 0xD000#16 x y n)⟩

theorem skp (x : Reg) : Statement (.skp x) :=
  ⟨⟨"EX9E", 0xF0FF, 0xE09E⟩, by decide, rfl, decide_eq_true (wordX_mask (mask := 0xF0FF#16) (by decide) 0xE09E#16 x)⟩

theorem sknp (x : Reg) : Statement (.sknp x) :=
  ⟨⟨"EXA1", 0xF0FF, 0xE0A1⟩, by decide, rfl, decide_eq_true (wordX_mask (mask := 0xF0FF#16) (by decide) 0xE0A1#16 x)⟩

theorem ldFromDt (x : Reg) : Statement (.ldFromDt x) :=
  ⟨⟨"FX07", 0xF0FF, 0xF007⟩, by decide, rfl, decide_eq_true (wordX_mask (mask := 0xF0FF#16) (by decide) 0xF007#16 x)⟩

theorem ldKey (x : Reg) : Statement (.ldKey x) :=
  ⟨⟨"FX0A", 0xF0FF, 0xF00A⟩, by decide, rfl, decide_eq_true (wordX_mask (mask := 0xF0FF#16) (by decide) 0xF00A#16 x)⟩

theorem ldDt (x : Reg) : Statement (.ldDt x) :=
  ⟨⟨"FX15", 0xF0FF, 0xF015⟩, by decide, rfl, decide_eq_true (wordX_mask (mask := 0xF0FF#16) (by decide) 0xF015#16 x)⟩

theorem ldSt (x : Reg) : Statement (.ldSt x) :=
  ⟨⟨"FX18", 0xF0FF, 0xF018⟩, by decide, rfl, decide_eq_true (wordX_mask (mask := 0xF0FF#16) (by decide) 0xF018#16 x)⟩

theorem addI (x : Reg) : Statement (.addI x) :=
  ⟨⟨"FX1E", 0xF0FF, 0xF01E⟩, by decide, rfl, decide_eq_true (wordX_mask (mask := 0xF0FF#16) (by decide) 0xF01E#16 x)⟩

theorem ldFont (x : Reg) : Statement (.ldFont x) :=
  ⟨⟨"FX29", 0xF0FF, 0xF029⟩, by decide, rfl, decide_eq_true (wordX_mask (mask := 0xF0FF#16) (by decide) 0xF029#16 x)⟩

theorem bcd (x : Reg) : Statement (.bcd x) :=
  ⟨⟨"FX33", 0xF0FF, 0xF033⟩, by decide, rfl, decide_eq_true (wordX_mask (mask := 0xF0FF#16) (by decide) 0xF033#16 x)⟩

theorem store (x : Reg) : Statement (.store x) :=
  ⟨⟨"FX55", 0xF0FF, 0xF055⟩, by decide, rfl, decide_eq_true (wordX_mask (mask := 0xF0FF#16) (by decide) 0xF055#16 x)⟩

theorem load (x : Reg) : Statement (.load x) :=
  ⟨⟨"FX65", 0xF0FF, 0xF065⟩, by decide, rfl, decide_eq_true (wordX_mask (mask := 0xF0FF#16) (by decide) 0xF065#16 x)⟩

end EncodeRow

end Sys2Proof.Laws
end

