-- ==== Sys2Proof/Tests/Slice0.lean ====
section
/-! SUPPORT. The model's own tests: words written out bit by bit from 30_encoding.md R65, the smoke test of
WellFormed, single steps from 95_test_vectors.md (the vector's id stands in each docstring), and for every
statement with hypotheses states and operands that meet them, at the boundaries of each clause. -/

namespace Sys2Proof.Tests

open Sys2Proof.Machine

/-! ### Helpers -/

/-- No key, no tick, random byte 0: the default inputs of 95_test_vectors.md. -/
def noInput : StepInput := { keys := 0, tick := false, rand := 0 }

/-- The default inputs with a timer tick. -/
def ticking : StepInput := { noInput with tick := true }

/-- The default inputs with these keys. -/
def pressing (keys : BitVec 16) : StepInput := { noInput with keys := keys }

/-- The base state of 95_test_vectors.md: after reset, the word at 0x200, one step's inputs fixed. -/
def base (w : Word) (inp : StepInput := noInput) : State :=
  { State.reset with
    mem := State.reset.mem.writeBytes 0x200 (bytesOfWord w)
    env := { pending := [inp], count := 0 } }

/-- The same with the word at `pc`, and PC there. -/
def baseAt (pc : Word) (w : Word) (inp : StepInput := noInput) : State :=
  { State.reset with
    pc := pc
    mem := State.reset.mem.writeBytes pc.toNat (bytesOfWord w)
    env := { pending := [inp], count := 0 } }

/-- The bytes at `a`. -/
def put (a : Nat) (bs : List Byte) (s : State) : State := s.setMem (s.mem.writeBytes a bs)

/-- The pixel On. -/
def light (x y : Nat) (s : State) : State := s.setFb (s.fb.toggle x y)

/-- The entry of the stack. -/
def stackEntry (k : Fin 16) (a : Word) (s : State) : State := { s with stack := s.stack.set k.val a k.isLt }

/-- The answer is a next state of which `p` holds. -/
def answers (p : State → Bool) : Result → Bool
  | .next t => p t
  | .fault _ => false
  | .refused _ => false

theorem exists_of_answers {p : State → Bool} {r : Result} (h : answers p r = true) : ∃ t, r = .next t ∧ p t = true := by
  cases r with
  | next t => exact ⟨t, rfl, h⟩
  | fault f => cases h
  | refused f => cases h

/-- The answer is a next state. -/
def isNext : Result → Bool := answers fun _ => true

theorem exists_of_isNext {r : Result} (h : isNext r = true) : ∃ t, r = .next t := by
  obtain ⟨t, e, -⟩ := exists_of_answers h
  exact ⟨t, e⟩

/-! ### Decoding: one word per row of R65, in binary from its encoding, with the fields of Part 3 -/

theorem test_decode_system_and_flow :
    decode 0b0000000011100000 = .instr .cls ∧
    decode 0b0000000011101110 = .instr .ret ∧
    decode 0b0001101010111100 = .instr (.jp 0xABC) ∧
    decode 0b0010101010111100 = .instr (.call 0xABC) ∧
    decode 0b0011101001000010 = .instr (.seImm 0xA 0x42) ∧
    decode 0b0100101001000010 = .instr (.sneImm 0xA 0x42) ∧
    decode 0b0101101010110000 = .instr (.seReg 0xA 0xB) ∧
    decode 0b1001101010110000 = .instr (.sneReg 0xA 0xB) ∧
    decode 0b1011101010111100 = .instr (.jpV0 0xABC) := by decide

theorem test_decode_alu :
    decode 0b0110101001000010 = .instr (.ldImm 0xA 0x42) ∧
    decode 0b0111101001000010 = .instr (.addImm 0xA 0x42) ∧
    decode 0b1000101010110000 = .instr (.ldReg 0xA 0xB) ∧
    decode 0b1000101010110001 = .instr (.or 0xA 0xB) ∧
    decode 0b1000101010110010 = .instr (.and 0xA 0xB) ∧
    decode 0b1000101010110011 = .instr (.xor 0xA 0xB) ∧
    decode 0b1000101010110100 = .instr (.addReg 0xA 0xB) ∧
    decode 0b1000101010110101 = .instr (.sub 0xA 0xB) ∧
    decode 0b1000101010110110 = .instr (.shr 0xA) ∧
    decode 0b1000101010110111 = .instr (.subn 0xA 0xB) ∧
    decode 0b1000101010111110 = .instr (.shl 0xA) ∧
    decode 0b1100101001000010 = .instr (.rnd 0xA 0x42) := by decide

theorem test_decode_index_memory_and_draw :
    decode 0b1010101010111100 = .instr (.ldI 0xABC) ∧
    decode 0b1101101010110101 = .instr (.drw 0xA 0xB 5) ∧
    decode 0b1111101000011110 = .instr (.addI 0xA) ∧
    decode 0b1111101000101001 = .instr (.ldFont 0xA) ∧
    decode 0b1111101000110011 = .instr (.bcd 0xA) ∧
    decode 0b1111101001010101 = .instr (.store 0xA) ∧
    decode 0b1111101001100101 = .instr (.load 0xA) := by decide

theorem test_decode_keys_and_timers :
    decode 0b1110101010011110 = .instr (.skp 0xA) ∧
    decode 0b1110101010100001 = .instr (.sknp 0xA) ∧
    decode 0b1111101000000111 = .instr (.ldFromDt 0xA) ∧
    decode 0b1111101000001010 = .instr (.ldKey 0xA) ∧
    decode 0b1111101000010101 = .instr (.ldDt 0xA) ∧
    decode 0b1111101000011000 = .instr (.ldSt 0xA) := by decide

/-- Unknown words of 95_test_vectors.md, at least one per family that has any (R66). -/
theorem test_decode_unknown :
    ([0x0000, 0x00E1, 0x00EF, 0x0FFF, 0x5121, 0x512F, 0x9AB1, 0x8128, 0x812D, 0x812F, 0xE19F, 0xE1A0, 0xF10B, 0xF175] :
      List Word).all (fun w => decide (decode w = .unknown)) = true := by decide

/-- Bytes in memory order, the high byte first (R42), and a byte string too short for a word. -/
theorem test_decode_bytes :
    decodeBytes [0x1A, 0xBC, 0x77] = .instr (.jp 0xABC) [0x77] ∧ decodeBytes [0x00, 0x00] = .unknown 0x0000 ∧
    decodeBytes [0x1A] = .truncated := by decide

/-- The words the encoder writes are those of Part 3 (Y = 0 for 8XY6 and 8XYE, log entry 12). -/
theorem test_encode :
    encode (.drw 0xA 0xB 5) = 0xDAB5 ∧ encode (.sneImm 0xA 0x42) = 0x4A42 ∧ encode (.call 0xABC) = 0x2ABC ∧
    encode (.shr 0xA) = 0x8A06 ∧ encode (.load 0xF) = 0xFF65 := by decide

/-- The table rows' words: the decoder reads each, and `step` runs each as the first instruction after reset. -/
theorem test_table_words :
    ([0x00E0, 0x00EE, 0x1ABC, 0x2ABC, 0x3A42, 0x4A42, 0x5AB0, 0x9AB0, 0xBABC, 0x6A42, 0x7A42, 0x8AB0, 0x8AB1, 0x8AB2, 0x8AB3, 0x8AB4, 0x8AB5,
      0x8AB6, 0x8AB7, 0x8ABE, 0xCA42, 0xAABC, 0xDAB5, 0xFA1E, 0xFA29, 0xFA33, 0xFA55, 0xFA65, 0xEA9E, 0xEAA1, 0xFA07, 0xFA0A, 0xFA15, 0xFA18] : List Nat).all
      (fun w => (decodeTableWord 16 w).isSome && isNext (step (State.reset.withFetchWord 16 w))) = true := by decide

/-! ### WellFormed: an ill-formed term for each check -/

theorem smoke_wf_register : fieldFits 15 4 = true ∧ fieldFits 16 4 = false := by decide
theorem smoke_wf_byte : fieldFits 255 8 = true ∧ fieldFits 256 8 = false := by decide
theorem smoke_wf_address : fieldFits 4095 12 = true ∧ fieldFits 4096 12 = false := by decide
theorem smoke_wf_instr : (Instr.drw 15 15 15).wf = true ∧ (Instr.jp 0xFFF).wf = true := by decide
theorem programFits_replicate (n : Nat) (b : Byte) : programFits (List.replicate n b) = decide (n ≤ 3584) := by
  rw [programFits, List.length_replicate]

theorem smoke_wf_program :
    programFits (List.replicate 3584 0) = true ∧ programFits (List.replicate 3585 0) = false := by
  rw [programFits_replicate, programFits_replicate]
  decide

/-- The reset move refuses a PROGRAM that is ill formed. -/
theorem smoke_reset_refuses (s : State) :
    applyMove (.reset (Vector.replicate 80 0) (List.replicate 3585 0)) s = .refused .programTooLarge := by
  rw [applyMove, programFits_replicate]
  rfl

/-! ### Single steps -/

/-- F2 -/
theorem test_ret : answers (fun t => decide (t.pc = 0x0ABC ∧ t.sp = 15 ∧ t.fault = FaultRecord.clear))
    (step ({ stackEntry 15 0x0ABC (base 0x00EE) with sp := 16 })) = true := by decide

/-- F3 -/
theorem test_ret_underflow : answers (fun t => decide (t.pc = 0x0200 ∧ t.fault = ⟨.stackUnderflow, 0x0200, 0x00EE, 0⟩))
    (step (stackEntry 0 0x0204 (base 0x00EE))) = true := by decide

/-- F6 -/
theorem test_jp : answers (fun t => decide (t.pc = 0x0FFF ∧ t.fault = FaultRecord.clear))
    (step (base 0x1FFF)) = true := by decide

/-- F9 -/
theorem test_call : answers (fun t => decide (t.pc = 0x0300 ∧ t.sp = 16 ∧ t.stack.get 15 = 0x0202))
    (step ({ base 0x2300 with sp := 15 })) = true := by decide

/-- F10 -/
theorem test_call_overflow : answers (fun t => decide (t.pc = 0x0200 ∧ t.stack.get 15 = 0x0777 ∧ t.fault = ⟨.stackOverflow, 0x0200, 0x2300, 0⟩))
    (step ({ stackEntry 15 0x0777 (base 0x2300) with sp := 16 })) = true := by decide

/-- F23: the skip at the last word -/
theorem test_seImm : answers (fun t => decide (t.pc = 0x1002 ∧ t.fault = FaultRecord.clear))
    (step (baseAt 0x0FFE 0x3A00)) = true := by decide

/-- F14 -/
theorem test_sneImm : answers (fun t => decide (t.pc = 0x0202))
    (step ((base 0x4A42).setV 0xA 0x42)) = true := by decide

/-- F17 -/
theorem test_seReg : answers (fun t => decide (t.pc = 0x0202))
    (step (((base 0x5AB0).setV 0xA 0x07).setV 0xB 0x08)) = true := by decide

/-- F19 -/
theorem test_sneReg : answers (fun t => decide (t.pc = 0x0204))
    (step (((base 0x9AB0).setV 0xA 0x07).setV 0xB 0x08)) = true := by decide

/-- F26 -/
theorem test_jpV0 : answers (fun t => decide (t.pc = 0x10FE ∧ t.fault = FaultRecord.clear))
    (step ((base 0xBFFF).setV 0x0 0xFF)) = true := by decide

/-- A1 -/
theorem test_ldImm : answers (fun t => decide (t.readV regVF = 0x77 ∧ t.pc = 0x0202))
    (step (base 0x6F77)) = true := by decide

/-- A3 -/
theorem test_addImm : answers (fun t => decide (t.readV 0xA = 0 ∧ t.readV regVF = 0x55))
    (step (((base 0x7A01).setV 0xA 0xFF).setV 0xF 0x55)) = true := by decide

/-- A6 -/
theorem test_ldReg : answers (fun t => decide (t.readV 0xA = 0xC3 ∧ t.readV regVF = 0x55))
    (step ((((base 0x8AB0).setV 0xA 0x01).setV 0xB 0xC3).setV 0xF 0x55)) = true := by decide

/-- A8 -/
theorem test_or : answers (fun t => decide (t.readV 0xA = 0xFF ∧ t.readV regVF = 0x55))
    (step ((((base 0x8AB1).setV 0xA 0xF0).setV 0xB 0x0F).setV 0xF 0x55)) = true := by decide

/-- A9 -/
theorem test_and : answers (fun t => decide (t.readV 0xA = 0x30 ∧ t.readV regVF = 0x55))
    (step ((((base 0x8AB2).setV 0xA 0xF0).setV 0xB 0x3C).setV 0xF 0x55)) = true := by decide

/-- A10 -/
theorem test_xor : answers (fun t => decide (t.readV 0xA = 0xCC ∧ t.readV regVF = 0x55))
    (step ((((base 0x8AB3).setV 0xA 0xF0).setV 0xB 0x3C).setV 0xF 0x55)) = true := by decide

/-- A19 -/
theorem test_addReg : answers (fun t => decide (t.readV 1 = 0x10 ∧ t.readV regVF = 1))
    (step (((base 0x81F4).setV 0x1 0xF0).setV 0xF 0x20)) = true := by decide

/-- A18 -/
theorem test_addReg_flag : answers (fun t => decide (t.readV regVF = 0))
    (step (((base 0x8F14).setV 0xF 0x01).setV 0x1 0x01)) = true := by decide

/-- A20 -/
theorem test_sub : answers (fun t => decide (t.readV 1 = 0xF0 ∧ t.readV regVF = 0 ∧ t.readV 2 = 0x20))
    (step (((base 0x8125).setV 0x1 0x10).setV 0x2 0x20)) = true := by decide

/-- A21 -/
theorem test_sub_equal : answers (fun t => decide (t.readV 1 = 0 ∧ t.readV regVF = 1))
    (step (((base 0x8125).setV 0x1 0x33).setV 0x2 0x33)) = true := by decide

/-- A28 -/
theorem test_shr : answers (fun t => decide (t.readV 1 = 2 ∧ t.readV 2 = 0xFF ∧ t.readV regVF = 1))
    (step (((base 0x8126).setV 0x1 0x05).setV 0x2 0xFF)) = true := by decide

/-- R129, X = 0xF: VF ends as 0 -/
theorem test_shr_flag : answers (fun t => decide (t.readV regVF = 0))
    (step ((base 0x8F06).setV 0xF 0x03)) = true := by decide

/-- the example of R130 -/
theorem test_subn : answers (fun t => decide (t.readV 1 = 0xFE ∧ t.readV regVF = 0))
    (step (((base 0x8127).setV 0x1 0x05).setV 0x2 0x03)) = true := by decide

/-- the example of R131 -/
theorem test_shl : answers (fun t => decide (t.readV 3 = 2 ∧ t.readV regVF = 1))
    (step ((base 0x830E).setV 0x3 0x81)) = true := by decide

/-- R131, X = 0xF: VF ends as 2 -/
theorem test_shl_flag : answers (fun t => decide (t.readV regVF = 2))
    (step ((base 0x8F0E).setV 0xF 0x80)) = true := by decide

/-- the example of R132 -/
theorem test_rnd : answers (fun t => decide (t.readV 4 = 0x07))
    (step (base 0xC40F { noInput with rand := 0xB7 })) = true := by decide

/-- the example of R140 -/
theorem test_ldI : answers (fun t => decide (t.i = 0x02F0))
    (step (base 0xA2F0)) = true := by decide

/-- M4 -/
theorem test_addI : answers (fun t => decide (t.i = 0x0001 ∧ t.readV regVF = 0))
    (step (({ base 0xF11E with i := 0xFFFF }).setV 0x1 0x02)) = true := by decide

/-- M8 -/
theorem test_ldFont : answers (fun t => decide (t.i = 0x0082))
    (step ((base 0xF129).setV 0x1 0x1A)) = true := by decide

/-- M15 -/
theorem test_bcd : answers (fun t => decide (t.mem.readBytes 0xFFD 3 = [1, 2, 3] ∧ t.i = 0x0FFD))
    (step (({ base 0xF133 with i := 0x0FFD }).setV 0x1 0x7B)) = true := by decide

/-- M16 -/
theorem test_bcd_range : answers (fun t => decide (t.mem.read 0xFFE = 0 ∧ t.fault = ⟨.addressOutOfRange, 0x0200, 0xF133, 0x1000⟩))
    (step (({ base 0xF133 with i := 0x0FFE }).setV 0x1 0x7B)) = true := by decide

/-- M20 -/
theorem test_store : answers (fun t => decide (t.mem.readBytes 0x300 4 = [0x11, 0x22, 0x33, 0] ∧ t.i = 0x0300))
    (step ((((({ base 0xF255 with i := 0x0300 }).setV 0x0 0x11).setV 0x1 0x22).setV 0x2 0x33).setV 0x3 0x44)) = true := by decide

/-- M17 for FX55: the address recorded is I itself above 0x1000 -/
theorem test_store_range : answers (fun t => decide (t.fault = ⟨.addressOutOfRange, 0x0200, 0xF255, 0x2000⟩ ∧ t.pc = 0x0200))
    (step ({ base 0xF255 with i := 0x2000 })) = true := by decide

/-- M28 -/
theorem test_load : answers (fun t => decide (t.readV 0 = 1 ∧ t.readV 3 = 4 ∧ t.readV 4 = 9))
    (step ((put 0xFFC [1, 2, 3, 4] { base 0xF365 with i := 0x0FFC }).setV 0x4 0x09)) = true := by decide

/-- M27 -/
theorem test_load_range : answers (fun t => decide (t.readV 0 = 9 ∧ t.fault = ⟨.addressOutOfRange, 0x0200, 0xF365, 0x1000⟩))
    (step ((put 0xFFD [1, 2, 3] { base 0xF365 with i := 0x0FFD }).setV 0x0 0x09)) = true := by decide

/-- D1 -/
theorem test_cls : answers (fun t => decide (t.fb = Framebuffer.allOff ∧ t.status = .runningDraw))
    (step (light 0 0 (light 63 31 (light 10 5 (base 0x00E0))))) = true := by decide

/-- D6: clipping at the right and bottom edges -/
theorem test_drw : answers (fun t => decide (t.fb = ((Framebuffer.allOff.toggle 62 31).toggle 63 31) ∧ t.readV regVF = 0 ∧ t.status = .runningDraw))
    (step (((put 0x300 [0xF0, 0xFF] { base 0xD012 with i := 0x0300 }).setV 0x0 0x3E).setV 0x1 0x1F)) = true := by decide

/-- D16: Y = 0xF, collision -/
theorem test_drw_collision : answers (fun t => decide (t.fb = Framebuffer.allOff ∧ t.readV regVF = 1))
    (step (((light 2 5 (put 0x300 [0x80] { base 0xD1F1 with i := 0x0300 })).setV 0xF 0x05).setV 0x1 0x02)) = true := by decide

/-- K2 -/
theorem test_skp : answers (fun t => decide (t.pc = 0x0202))
    (step ((base 0xE19E (pressing 0xFF7F)).setV 0x1 0x07)) = true := by decide

/-- K4 -/
theorem test_skp_index : answers (fun t => decide (t.pc = 0x0200 ∧ t.fault = ⟨.keyIndexOutOfRange, 0x0200, 0xE19E, 0x0010⟩))
    (step ((base 0xE19E (pressing 0xFFFF)).setV 0x1 0x10)) = true := by decide

/-- K7 -/
theorem test_sknp : answers (fun t => decide (t.pc = 0x0204))
    (step ((base 0xE1A1 (pressing 0xFFFE)).setV 0x1 0x00)) = true := by decide

/-- W7.2 -/
theorem test_ldKey : answers (fun t => decide (t.readV 3 = 7 ∧ t.pc = 0x0202))
    (step ((base 0xF30A (pressing 0x0280)).setV 0x3 0x55)) = true := by decide

/-- W7.3 -/
theorem test_ldKey_stall : answers (fun t => decide (t.readV 3 = 0x55 ∧ t.pc = 0x0200 ∧ t.dt = 1 ∧ t.st = 0))
    (step (({ base 0xF30A ticking with dt := 2, st := 1 }).setV 0x3 0x55)) = true := by decide

/-- K9 -/
theorem test_ldFromDt : answers (fun t => decide (t.readV 1 = 5 ∧ t.dt = 4))
    (step ({ base 0xF107 ticking with dt := 5 })) = true := by decide

/-- K11 -/
theorem test_ldDt : answers (fun t => decide (t.dt = 4 ∧ t.st = 0))
    (step ((base 0xF115 ticking).setV 0x1 0x05)) = true := by decide

/-- K13 -/
theorem test_ldSt : answers (fun t => decide (t.st = 0 ∧ t.outputs.beep = false))
    (step ((base 0xF118 ticking).setV 0x1 0x01)) = true := by decide

/-- C1 -/
theorem test_last_word : answers (fun t => decide (t.readV 0xA = 0x55 ∧ t.pc = 0x1000 ∧ t.fault = FaultRecord.clear))
    (step (baseAt 0x0FFE 0x6A55)) = true := by decide

/-- C2 -/
theorem test_fetch_fault : answers (fun t => decide (t.dt = 3 ∧ t.fault = ⟨.addressOutOfRange, 0x0FFF, 0, 0x1000⟩))
    (step (put 0xFFF [0x12] { State.reset with pc := 0x0FFF, dt := 3 })) = true := by decide

/-- C6 -/
theorem test_unknown : answers (fun t => decide (t.dt = 5 ∧ t.outputs.beep = true ∧ t.fault = ⟨.unknownOpcode, 0x0200, 0, 0⟩))
    (step ({ base 0x0000 ticking with dt := 5, st := 5 })) = true := by decide

/-- C5 -/
theorem test_odd_pc : answers (fun t => decide (t.readV 0xA = 0x77 ∧ t.pc = 0x0203))
    (step (baseAt 0x0201 0x6A77)) = true := by decide

/-- C7: a halted core ignores a step. -/
theorem test_halted : answers (fun t => decide (t.dt = 5 ∧ t.pc = 0x0200 ∧ t.fault.cause = .unknownOpcode ∧ t.outputs.beep = true))
    (step { base 0x6A01 ticking with dt := 5, st := 5, fault := ⟨.unknownOpcode, 0x0200, 0, 0⟩ }) = true := by decide

/-! ### States and operands that meet the hypotheses of the statements -/

/-- A halted core. -/
def halted : State := { base 0x00E0 with fault := ⟨.stackOverflow, 0x0300, 0x2300, 0⟩ }

theorem witness_DecodeOfEncodeIsTheInstruction :
    (Instr.drw 15 15 15).wf = true ∧ (Instr.jp 0xFFF).wf = true ∧ (Instr.rnd 0 0xFF).wf = true := by decide

theorem witness_EncodeOfDecodeRestoresTheWord :
    decode 0x8AB6 = .instr (.shr 0xA) ∧ decode 0x8ABE = .instr (.shl 0xA) ∧ decode 0xDAB5 = .instr (.drw 0xA 0xB 5) := by
  decide

theorem witness_DecodeFollowsTheOpcodeMap :
    (∃ r ∈ opcodeRows, r.selects 0x8AB4 = true) ∧ decode 0xFA65 = .instr (.load 0xA) ∧ decode 0xFA66 = .unknown := by decide

theorem witness_StepFollowsThePhases :
    halted.halted = true ∧
    ((baseAt 0x0FFE 0x6A55).halted = false ∧ (baseAt 0x0FFE 0x6A55).pc.toNat = 0xFFE ∧
      decode ((baseAt 0x0FFE 0x6A55).mem.readWord 0xFFE) = .instr (.ldImm 0xA 0x55) ∧
      ∃ t, exec (.ldImm 0xA 0x55) (baseAt 0x0FFE 0x6A55).beginStep = .next t ∧ t.halted = false) ∧
    (∃ t, exec .ret (base 0x00EE).beginStep = .next t ∧ t.halted = true) ∧
    (0xFFF ≤ ({ base 0 with pc := 0x0FFF }).pc.toNat ∧ ({ base 0 with pc := 0x0FFF }).halted = false) ∧
    (decode ((base 0).mem.readWord (base 0).pc.toNat) = .unknown ∧ (base 0).pc.toNat ≤ 0xFFE) :=
  ⟨by decide, ⟨by decide, by decide, by decide, by
      obtain ⟨t, e, h⟩ := exists_of_answers (p := fun t => !t.halted)
        (r := exec (.ldImm 0xA 0x55) (baseAt 0x0FFE 0x6A55).beginStep) (by decide)
      exact ⟨t, e, by simpa using h⟩⟩,
    exists_of_answers (p := State.halted) (by decide), by decide, by decide⟩

theorem witness_HaltedCoreChangesNothing : halted.halted = true := by decide

/-- Faults in fetch (PC = 0xFFF), decode and execute. -/
theorem witness_FaultEntryIsPrecise :
    (∃ t, step { base 0 with pc := 0x0FFF } = .next t ∧ t.halted = true) ∧
    (∃ t, step (base 0) = .next t ∧ t.halted = true) ∧
    (∃ t, step (base 0x00EE) = .next t ∧ t.halted = true) ∧ (base 0x00EE).halted = false :=
  ⟨exists_of_answers (p := State.halted) (by decide), exists_of_answers (p := State.halted) (by decide),
    exists_of_answers (p := State.halted) (by decide), by decide⟩

/-- One state with an expected record and one with none. -/
theorem witness_FaultRaisedExactlyAsTabulated :
    ((base 0x00EE).halted = false ∧ (expectedRecord (base 0x00EE)).isSome = true ∧ ∃ t, step (base 0x00EE) = .next t) ∧
    ((base 0x6A01).halted = false ∧ expectedRecord (base 0x6A01) = none ∧ ∃ t, step (base 0x6A01) = .next t) :=
  ⟨⟨by decide, by decide, exists_of_isNext (by decide)⟩, ⟨by decide, by decide, exists_of_isNext (by decide)⟩⟩

theorem witness_TimersUpdateAfterExecute :
    (halted.halted = true ∧ ∃ t, step halted = .next t) ∧
    ((base 0xF115 ticking).halted = false ∧ (base 0xF115 ticking).pc.toNat ≤ 0xFFE ∧
      decode ((base 0xF115 ticking).mem.readWord (base 0xF115 ticking).pc.toNat) = .instr (.ldDt 1) ∧
      (∃ t, step (base 0xF115 ticking) = .next t) ∧
      ∃ u, exec (.ldDt 1) (base 0xF115 ticking).beginStep = .next u ∧ (!u.halted) = true) :=
  ⟨⟨by decide, exists_of_isNext (by decide)⟩, by decide, by decide, by decide, exists_of_isNext (by decide),
    exists_of_answers (p := fun u => !u.halted) (by decide)⟩

/-- A ticking step of an instruction that is neither FX15 nor FX18, from DT = 1 and ST = 0. -/
theorem witness_TimersFallByAtMostOnePerStep :
    (∃ t, step { base 0x6A01 ticking with dt := 1 } = .next t ∧ decide (t.dt = 0 ∧ t.st = 0) = true) ∧
    ∀ x : Reg, decode (({ base 0x6A01 ticking with dt := 1 }).mem.readWord ({ base 0x6A01 ticking with dt := 1 }).pc.toNat) ≠
        .instr (.ldDt x) ∧
      decode (({ base 0x6A01 ticking with dt := 1 }).mem.readWord ({ base 0x6A01 ticking with dt := 1 }).pc.toNat) ≠
        .instr (.ldSt x) :=
  ⟨exists_of_answers (p := fun t => decide (t.dt = 0 ∧ t.st = 0)) (by decide), by decide⟩

/-- The invariant, with an entry of the stack in use and a PC at the bound of R15. -/
theorem witness_inv :
    State.Inv { stackEntry 0 0x10FE (base 0x00EE) with sp := 1, pc := 0x10FE } ∧ halted.Inv := by
  refine ⟨⟨by decide, by decide, by decide, fun _ => rfl, by decide⟩, by decide, by decide, by decide, by decide, by decide⟩

/-- A drawing step and one that does not draw, from states of the invariant. -/
theorem witness_StatusShowsDrawingSteps :
    ((base 0x00E0).Inv ∧ ∃ t, step (base 0x00E0) = .next t ∧ decide (t.status = .runningDraw) = true) ∧
    ((base 0x6A01).Inv ∧ ∃ t, step (base 0x6A01) = .next t ∧ decide (t.status = .running) = true) :=
  ⟨⟨⟨by decide, by decide, by decide, fun _ => rfl, by decide⟩,
      exists_of_answers (p := fun t => decide (t.status = .runningDraw)) (by decide)⟩,
    ⟨⟨by decide, by decide, by decide, fun _ => rfl, by decide⟩,
      exists_of_answers (p := fun t => decide (t.status = .running)) (by decide)⟩⟩

/-- Two steps that differ in `keys` and `rand` only, of an instruction that reads neither. -/
theorem witness_KeysAndRandReachOnlyTheirInstructions :
    (∃ t, step ((base 0x6A01).withInput noInput) = .next t) ∧
    (∃ t, step ((base 0x6A01).withInput { keys := 0xFFFF, tick := false, rand := 0xFF }) = .next t) ∧
    (∀ x : Reg, decode ((base 0x6A01).mem.readWord 0x200) ≠ .instr (.skp x) ∧
      decode ((base 0x6A01).mem.readWord 0x200) ≠ .instr (.sknp x) ∧
      decode ((base 0x6A01).mem.readWord 0x200) ≠ .instr (.ldKey x)) ∧
    (∀ (x : Reg) (nn : Byte), decode ((base 0x6A01).mem.readWord 0x200) ≠ .instr (.rnd x nn)) := by
  refine ⟨exists_of_isNext (by decide), exists_of_isNext (by decide), by decide, fun x nn => ?_⟩
  rw [show decode ((base 0x6A01).mem.readWord 0x200) = .instr (.ldImm 0xA 1) by decide]
  simp

theorem witness_TickReachesOnlyTheTimers :
    (∃ t, step ((base 0xF30A).withInput noInput) = .next t) ∧ ∃ t, step ((base 0xF30A).withInput ticking) = .next t :=
  ⟨exists_of_isNext (by decide), exists_of_isNext (by decide)⟩

/-- One core state and one step's inputs, other inputs to come and another count; the instruction reads them. -/
theorem witness_StepIsAFunctionOfCoreStateAndInputs :
    (∃ s s' : State, s.toCoreState = s'.toCoreState ∧ s.input = s'.input ∧ s ≠ s' ∧
      (∃ t, step s = .next t) ∧ ∃ t', step s' = .next t') :=
  ⟨base 0xF30A ticking, { base 0xF30A with env := { pending := [ticking, noInput], count := 7 } }, rfl, by decide,
    by decide, exists_of_isNext (by decide), exists_of_isNext (by decide)⟩

theorem witness_InputsAreTakenInOrder : ∃ t, step (base 0x6A01) = .next t := exists_of_isNext (by decide)

theorem witness_EveryStepKeepsTheInvariant : (base 0x00E0).Inv ∧ ∃ t, step (base 0x00E0) = .next t :=
  ⟨⟨by decide, by decide, by decide, fun _ => rfl, by decide⟩, exists_of_isNext (by decide)⟩

/-- The longest PROGRAM, and the shortest that is refused. -/
theorem witness_programs :
    programFits (List.replicate 3584 0x12) = true ∧ (List.replicate 3584 (0x12 : Byte)).length ≤ 3584 ∧
    3584 < (List.replicate 3585 (0x12 : Byte)).length ∧ programFits [] = true ∧ programFits [0x12] = true := by
  rw [programFits_replicate, List.length_replicate, List.length_replicate]
  decide

theorem witness_ResetValues : ∃ s, s = State.resetWith (Vector.replicate 80 0xFF) [0x12, 0x00] := ⟨_, rfl⟩

/-- Addresses at both ends of the three ranges of R28, under a PROGRAM of two bytes. -/
theorem witness_ResetMemoryImage :
    programFits [0x12, 0x34] = true ∧
    [0x04F, 0x050, 0x09F, 0x0A0, 0x1FF, 0x200, 0x201, 0x202, 0xFFF].map
      (State.resetWith (Vector.replicate 80 0xFF) [0x12, 0x34]).mem.read = [0, 0xFF, 0xFF, 0, 0, 0x12, 0x34, 0, 0] := by
  decide

/-- A taken skip at the last fetchable word, and 00EE from a full stack. -/
theorem witness_PcAfterEveryInstruction :
    ((baseAt 0x0FFE 0x3A00).halted = false ∧ (baseAt 0x0FFE 0x3A00).pc.toNat ≤ 0xFFE ∧
      decode ((baseAt 0x0FFE 0x3A00).mem.readWord 0xFFE) = .instr (.seImm 0xA 0) ∧
      expectedFault (.seImm 0xA 0) (baseAt 0x0FFE 0x3A00) = none ∧ ∃ t, step (baseAt 0x0FFE 0x3A00) = .next t) ∧
    expectedFault .ret { base 0x00EE with sp := 16 } = none :=
  ⟨⟨by decide, by decide, by decide, by decide, exists_of_isNext (by decide)⟩, by decide⟩

/-- A form that stores, at the last address that fits. -/
theorem witness_EveryInstructionKeepsItsFrame :
    expectedFault (.store 0xF) { base 0xFF55 with i := 0x0FF0 } = none ∧
    ∃ t, exec (.store 0xF) { base 0xFF55 with i := 0x0FF0 } = .next t :=
  ⟨by decide, exists_of_isNext (by decide)⟩

/-- M23: FX55 over the next instruction. -/
def selfModifying : State := { base 0xF155 with i := 0x0202 }

theorem witness_StoredWordIsFetchedNext :
    selfModifying.mem.wf = true ∧ selfModifying.halted = false ∧ selfModifying.pc.toNat ≤ 0xFFE ∧
    decode (selfModifying.mem.readWord selfModifying.pc.toNat) = .instr (.store 1) ∧ 1 ≤ (1 : Reg).val ∧
    selfModifying.i = selfModifying.pc + 2 ∧ selfModifying.i.toNat + (1 : Reg).val ≤ 0xFFF ∧
    ∃ t, step selfModifying = .next t :=
  ⟨by decide, by decide, by decide, by decide, by decide, by decide, by decide, exists_of_isNext (by decide)⟩

/-- W5: glyph 0 drawn twice, the second draw collides. -/
theorem witness_DrawingTwiceRestoresTheScreen :
    answers (fun t => answers (fun u => decide (u.fb = Framebuffer.allOff ∧ u.readV regVF = 1))
        (exec (.drw 0 1 5) { t with v := (base 0xD015).v }))
      (exec (.drw 0 1 5) { base 0xD015 with i := 0x0050 }) = true := by decide

/-- The last sprite that fits, N = 0 with I beyond memory, and a draw after 00E0. -/
theorem witness_draw :
    (∃ t, exec (.drw 0 1 5) { base 0xD015 with i := 0x0FFB } = .next t) ∧
    0x0FFB + 5 ≤ 0x1000 ∧
    (∃ t, exec (.drw 0 1 0) { base 0xD010 with i := 0x2000 } = .next t) ∧
    (∃ s, exec .cls (base 0x00E0) = .next s ∧ isNext (exec (.drw 0 1 0) s) = true) :=
  ⟨exists_of_isNext (by decide), by decide, exists_of_isNext (by decide),
    exists_of_answers (p := fun s => isNext (exec (.drw 0 1 0) s)) (by decide)⟩

/-- Placing a word in a core that runs at the last fetchable address, and in a halted core. -/
theorem witness_PlacedWordIsTheOneThatRuns :
    decode (BitVec.ofNat 16 0x6A55) = .instr (.ldImm 0xA 0x55) ∧
    ({ base 0 with pc := 0x0FFE }).mem.wf = true ∧ ({ base 0 with pc := 0x0FFE }).halted = false ∧
    ({ base 0 with pc := 0x0FFE }).pc.toNat ≤ 0xFFE ∧
    answers (fun t => decide (t.readV 0xA = 0x55 ∧ t.pc = 0x1000))
      (step (State.withFetchWord { base 0 with pc := 0x0FFE } 16 0x6A55)) = true ∧
    halted.mem.wf = true ∧ answers (fun t => decide (t.readV 0xA = 0x55)) (step (halted.withFetchWord 16 0x6A55)) = true := by
  decide

/-- SP = 1, 16 (a return) and 0 (the fault). -/
theorem witness_RetPopsThePc :
    ({ base 0x00EE with sp := 1 }).sp.val ≠ 0 ∧ ({ base 0x00EE with sp := 16 }).sp.val ≠ 0 ∧ (base 0x00EE).sp.val = 0 := by
  decide

/-- SP = 15 (the sixteenth call) and 16 (the fault). -/
theorem witness_CallPushesThePc :
    ({ base 0x2300 with sp := 15 }).sp.val < 16 ∧ ({ base 0x2300 with sp := 16 }).sp.val = 16 := by decide

/-- X = 0xE and X = 0xF, for the two clauses of 8XY4 to 8XYE. -/
theorem witness_flag_forms : (0xE : Reg) ≠ regVF ∧ (0xF : Reg) = regVF := by decide

theorem witness_RandomMaskedByImmediate : (base 0xC40F { noInput with rand := 0xB7 }).input.rand = 0xB7 := by decide

/-- I = 0xFFD fits, 0xFFE does not. -/
theorem witness_StoreDecimalDigits :
    ({ base 0xF133 with i := 0x0FFD }).i.toNat + 2 ≤ 0xFFF ∧ (base 0xF133).mem.wf = true ∧
    0xFFF < ({ base 0xF133 with i := 0x0FFE }).i.toNat + 2 := by decide

/-- FX55 and FX65 with X = 0xF: I = 0xFF0 fits, 0xFF1 does not; X = 0 at 0xFFF and 0x1000. -/
theorem witness_register_blocks :
    ({ base 0xFF55 with i := 0x0FF0 }).i.toNat + (0xF : Reg).val ≤ 0xFFF ∧
    0xFFF < ({ base 0xFF55 with i := 0x0FF1 }).i.toNat + (0xF : Reg).val ∧
    ({ base 0xF055 with i := 0x0FFF }).i.toNat + (0 : Reg).val ≤ 0xFFF ∧
    0xFFF < ({ base 0xF055 with i := 0x1000 }).i.toNat + (0 : Reg).val := by decide

/-- N = 0 anywhere, N = 15 at the last place that fits and one beyond; a set bit on an On pixel. -/
theorem witness_DrawSprite :
    (0 : Count4).val = 0 ∧
    ({ base 0xD01F with i := 0x0FF1 }).i.toNat + (15 : Count4).val - 1 ≤ 0xFFF ∧
    (1 ≤ (15 : Count4).val ∧ 0xFFF < ({ base 0xD01F with i := 0x0FF2 }).i.toNat + (15 : Count4).val - 1) ∧
    (SpriteSets (light 63 31 { base 0xD011 with i := 0x0050 }) 63 31 1 63 31 ∧
      (light 63 31 { base 0xD011 with i := 0x0050 }).fb.pixel 63 31 = true) :=
  ⟨by decide, by decide, by decide, ⟨0, 0, by decide, by decide, by decide, by decide, by decide⟩, by decide⟩

/-- V[X] = 15 is an index, 16 is none. -/
theorem witness_SkipOnKey :
    (((base 0xE19E).setV 1 15).readV 1).toNat ≤ 15 ∧ 15 < (((base 0xE19E).setV 1 16).readV 1).toNat := by decide

/-- Key 15 alone, key 0 with others, no key. -/
theorem witness_WaitForKey :
    ((base 0xF30A (pressing 0x8000)).input.keys.getLsbD 15 = true ∧
      ∀ j : Nat, j < 15 → (base 0xF30A (pressing 0x8000)).input.keys.getLsbD j = false) ∧
    (base 0xF30A (pressing 0xFFFF)).input.keys.getLsbD 0 = true ∧
    (∀ k : Nat, k < 16 → (base 0xF30A).input.keys.getLsbD k = false) ∧
    (base 0xF30A).halted = false ∧ (base 0xF30A).pc.toNat ≤ 0xFFE ∧
    decode ((base 0xF30A).mem.readWord (base 0xF30A).pc.toNat) = .instr (.ldKey 3) ∧ ∃ t, step (base 0xF30A) = .next t :=
  ⟨by decide, by decide, by decide, by decide, by decide, by decide, exists_of_isNext (by decide)⟩

/-- FX07, FX15 and FX18 fetched from 0x200. -/
theorem witness_timer_instructions :
    (decode ((base 0xF107).mem.readWord (base 0xF107).pc.toNat) = .instr (.ldFromDt 1) ∧ ∃ t, step (base 0xF107) = .next t) ∧
    (decode ((base 0xF115).mem.readWord (base 0xF115).pc.toNat) = .instr (.ldDt 1) ∧ ∃ t, step (base 0xF115) = .next t) ∧
    (decode ((base 0xF118).mem.readWord (base 0xF118).pc.toNat) = .instr (.ldSt 1) ∧ ∃ t, step (base 0xF118) = .next t) ∧
    (base 0xF107).halted = false ∧ (base 0xF107).pc.toNat ≤ 0xFFE :=
  ⟨⟨by decide, exists_of_isNext (by decide)⟩, ⟨by decide, exists_of_isNext (by decide)⟩,
    ⟨by decide, exists_of_isNext (by decide)⟩, by decide, by decide⟩

end Sys2Proof.Tests
end

section
/-! PROOFS of the family 10_state.md: the state after reset, the frame of the execute phase, the inputs to come,
and the invariant. -/

namespace Sys2Proof.Machine

/-! ### Memory after reset (10_state.md R28) -/

/-- Bytes written are read back where they stand, and every other address reads as before. -/
theorem Memory.read_writeBytes {m : Memory} (hm : m.wf = true) {a : Nat} {bs : List Byte}
    (hfit : a + bs.length ≤ 0x1000) (x : Nat) :
    (m.writeBytes a bs).read x = if a ≤ x ∧ x < a + bs.length then bs.getD (x - a) 0 else m.read x := by
  split
  · next hx =>
    obtain ⟨k, rfl⟩ := Nat.exists_eq_add_of_le hx.1
    have hk : k < bs.length := by omega
    rw [read_writeBytes_inside bs a k hk hm hfit, Nat.add_sub_cancel_left, List.getD_eq_getElem _ _ hk]
  · next hx => exact read_writeBytes_outside bs m a (by omega)

theorem programFits_iff (program : List Byte) : programFits program = true ↔ program.length ≤ 3584 :=
  decide_eq_true_iff

theorem Memory.wf_fontImage (fontset : Vector Byte 80) :
    (writeBytes [] Config.fontBase fontset.toList).wf = true :=
  wf_writeBytes _ _ wf_nil (by simp [Config.fontBase])

theorem Memory.wf_loadImage (fontset : Vector Byte 80) {program : List Byte} (hfit : programFits program = true) :
    (loadImage fontset program).wf = true := by
  rw [programFits_iff] at hfit
  exact wf_writeBytes _ _ (wf_fontImage fontset) (by simp only [Config.progBase]; omega)

/-- The image of R28: PROGRAM lies above FONTSET, and no byte of either is lost. -/
theorem Memory.read_loadImage (fontset : Vector Byte 80) {program : List Byte} (hfit : programFits program = true)
    (a : Nat) :
    (loadImage fontset program).read a =
      if 0x050 ≤ a ∧ a ≤ 0x09F then fontset.toList.getD (a - 0x050) 0
      else if 0x200 ≤ a ∧ a < 0x200 + program.length then program.getD (a - 0x200) 0
      else 0 := by
  rw [programFits_iff] at hfit
  rw [loadImage, read_writeBytes (wf_fontImage fontset) (by simp only [Config.progBase]; omega),
    read_writeBytes wf_nil (by simp [Config.fontBase])]
  simp only [Config.progBase, Config.fontBase, Vector.length_toList]
  by_cases hfont : 0x050 ≤ a ∧ a ≤ 0x09F
  · rw [if_neg (by omega), if_pos (by omega), if_pos hfont]
  · rw [if_neg (show ¬(0x050 ≤ a ∧ a < 0x050 + 80) by omega), if_neg hfont]
    congr 1
    exact resetByte_outside (by omega)

/-- What an unlisted address reads as, with the bounds R28 writes. -/
theorem resetByte_eq (a : Nat) :
    resetByte a = if 0x050 ≤ a ∧ a ≤ 0x09F then defaultFontset.getD (a - 0x050) 0 else 0 := by
  have hbounds : (0x050 ≤ a ∧ a < 0x050 + 80) = (0x050 ≤ a ∧ a ≤ 0x09F) := by
    simp only [eq_iff_iff]; omega
  simp only [resetByte, Config.fontBase, Config.fontSize, hbounds]

/-- Settles O21: the read of the load image, and of the empty list of cells for `State.reset`. -/
theorem resetMemoryImage : Obligations.ResetMemoryImage :=
  ⟨fun fontset _ a hfit _ => Memory.read_loadImage fontset hfit a, fun a _ => resetByte_eq a⟩

/-- Settles O20: reset sets every component but MEM to a constant, whatever is loaded. -/
theorem resetValues : Obligations.ResetValues := by
  rintro fontset program s rfl
  have hV : ∀ r : Reg, State.reset.readV r = 0 := by decide
  have hStack : ∀ k : Fin 16, State.reset.stack.get k = 0 := by decide
  exact ⟨rfl, hV, rfl, rfl, hStack, rfl, rfl, fun x y _ _ => Framebuffer.pixel_allOff x y, rfl, rfl⟩

/-! ### The frame of the execute phase (00_scope.md R7) -/

/-- A frame may be widened: more registers, more components, and where no byte was stored any bytes. -/
theorem Frame.widen {regs regs' : List Reg} {base base' len' : Nat} {comps comps' : List Component} {s t : State}
    (h : Frame regs base 0 comps s t) (hr : regs ⊆ regs') (hc : comps ⊆ comps') :
    Frame regs' base' len' comps' s t := by
  obtain ⟨hregs, hmem, hcomps⟩ := h
  exact ⟨fun r hn => hregs r fun hm => hn (hr hm), fun a _ => hmem a (by omega),
    fun c hn => hcomps c fun hm => hn (hc hm)⟩

/-- Where no byte is stored, the base of the frame is any address. -/
theorem Frame.rebase {regs : List Reg} {base base' : Nat} {comps : List Component} {s t : State}
    (h : Frame regs base 0 comps s t) : Frame regs base' 0 comps s t :=
  h.widen (List.Subset.refl _) (List.Subset.refl _)

theorem frame_cls (s : State) (fb : Framebuffer) (x : Status) :
    Frame [] 0 0 [.fb, .status] s ((s.setFb fb).setStatus x) :=
  frame_of_eq rfl rfl fun c hc => by
    cases c with
    | fb | status => simp at hc
    | _ => rfl

/-- An instruction that does not fault changes only what the tables of Safety list for it. -/
theorem exec_frame {i : Instr} {s t : State} (h : exec i s = .next t) (hf : expectedFault i s = none) :
    Frame (writtenRegs i) s.i.toNat (storedLength i) (writtenComponents i) s t := by
  cases i with
  | cls => exact exec_elim h rfl (frame_cls s _ _).rebase
  | ret =>
    refine exec_elim h rfl ?_
    cases hp : s.pop with
    | none => simp [expectedFault, (State.pop_eq_none_iff s).1 hp] at hf
    | some p => exact (frame_pop (a := p.1) (t := p.2) hp).rebase
  | call nnn =>
    refine exec_elim h rfl ?_
    cases hp : s.push s.pc with
    | none => simp [expectedFault, (State.push_eq_none_iff s _).1 hp] at hf
    | some u => exact (frame_push hp).rebase
  | jp | jpV0 | seImm | sneImm | seReg | sneReg => exact exec_elim h rfl (frame_setPc s _).rebase
  | skp x | sknp x =>
    refine exec_elim h rfl ?_
    rw [State.guardKey_index s _ (by simp [expectedFault] at hf; omega)]
    exact (frame_setPc s _).rebase
  | ldImm x | addImm x | ldReg x | or x | and x | xor x | rnd x | ldFromDt x =>
    exact exec_elim h rfl (frame_setV s x _).rebase
  | ldKey x =>
    refine exec_elim h rfl ?_
    cases lowestKey s.input with
    | some k => exact (frame_setV s x _).widen (by simp [writtenRegs]) (by simp)
    | none => exact (frame_setPc s _).widen (by simp) (by simp [writtenComponents])
  | addReg x | sub x | subn x => exact exec_elim h rfl (frame_setV_setFlag s x _ _).rebase
  | shr x | shl x => exact exec_elim h rfl (frame_setFlag_setV s x _ _).rebase
  | ldI | addI | ldFont => exact exec_elim h rfl (frame_setI s _).rebase
  | ldDt => exact exec_elim h rfl (frame_setDt s _).rebase
  | ldSt => exact exec_elim h rfl (frame_setSt s _).rebase
  | drw x y n =>
    refine exec_elim h rfl ?_
    rw [State.guardRange_admitted s _ (by simp [expectedFault] at hf; omega)]
    exact (frame_draw s _ _ _).rebase
  | bcd x =>
    refine exec_elim h rfl ?_
    rw [State.guardRange_admitted s _ (by simp [expectedFault] at hf; omega)]
    exact frame_writeBytes s _ (bcdDigits (s.readV x))
  | store x =>
    refine exec_elim h rfl ?_
    rw [State.guardRange_admitted s _ (by simp [expectedFault] at hf; omega)]
    have hframe := frame_writeBytes s s.i.toNat (s.regBlock x)
    rw [length_regBlock] at hframe
    exact hframe
  | load x =>
    refine exec_elim h rfl ?_
    rw [State.guardRange_admitted s _ (by simp [expectedFault] at hf; omega)]
    exact (frame_loadRegs s x).rebase

/-- Settles O25: one frame lemma per shared update, and no guard fires where no fault is expected. -/
theorem everyInstructionKeepsItsFrame : Obligations.EveryInstructionKeepsItsFrame :=
  fun _ _ _ h hf => exec_frame h hf

/-! ### The inputs to come (10_state.md R25)

`step` reads `env` through the three inputs of the step alone, so it commutes with a change of the rest. -/

/-- The state with other inputs to come: the core state is the same. -/
def State.setEnv (s : State) (e : Environment) : State := { s with env := e }

theorem State.coreState_setEnv (s : State) (e : Environment) : (s.setEnv e).toCoreState = s.toCoreState := rfl

theorem State.input_setEnv (s : State) (e : Environment) : (s.setEnv e).input = e.current := rfl

theorem guardRange_setEnv {s t t' : State} {n : Nat} {e : Environment} (ht : t' = t.setEnv e) :
    (s.setEnv e).guardRange n t' = (s.guardRange n t).setEnv e := by
  subst ht
  rw [State.guardRange, State.guardRange, apply_ite (State.setEnv · e)]
  rfl

theorem guardKey_setEnv {s t t' : State} {x : Reg} {e : Environment} (ht : t' = t.setEnv e) :
    (s.setEnv e).guardKey x t' = (s.guardKey x t).setEnv e := by
  subst ht
  rw [State.guardKey, State.guardKey, apply_ite (State.setEnv · e)]
  rfl

theorem push_setEnv (s : State) (a : Word) (e : Environment) :
    (s.setEnv e).push a = (s.push a).map (·.setEnv e) := by
  unfold State.push
  rw [apply_dite (Option.map _)]
  rfl

theorem pop_setEnv (s : State) (e : Environment) :
    (s.setEnv e).pop = s.pop.map fun p => (p.1, p.2.setEnv e) := by
  unfold State.pop
  rw [apply_dite (Option.map _)]
  rfl

/-- `exec` reads `env` through the step's inputs alone and does not write it. -/
theorem exec_setEnv {i : Instr} {s t : State} {e : Environment} (he : e.current = s.input)
    (h : exec i s = .next t) : exec i (s.setEnv e) = .next (t.setEnv e) := by
  cases i with
  | ret =>
    cases h
    simp only [exec, execRet, pop_setEnv]
    cases s.pop <;> rfl
  | call nnn =>
    cases h
    simp only [exec, execCall]
    rw [show (s.setEnv e).pc = s.pc from rfl, push_setEnv]
    cases s.push s.pc <;> rfl
  | rnd x nn =>
    cases h
    simp only [exec, execRnd, State.input_setEnv, he]
    rfl
  | ldKey x =>
    cases h
    simp only [exec, execLdKey, State.input_setEnv, he]
    cases lowestKey s.input <;> rfl
  | skp | sknp =>
    cases h
    simp only [exec, execSkp, execSknp, State.input_setEnv, he]
    exact congrArg Host.Outcome.next (guardKey_setEnv rfl)
  | drw | bcd | store | load =>
    cases h
    exact congrArg Host.Outcome.next (guardRange_setEnv rfl)
  | _ =>
    cases h
    rfl

/-- After execute, `env` is read for the timer tick and moves on. -/
theorem finishStep_setEnv {t : State} {e : Environment} (he : e.current = t.input) :
    (t.setEnv e).finishStep = t.finishStep.setEnv e.advance := by
  have hhalted : (t.setEnv e).halted = t.halted := rfl
  simp only [State.finishStep, State.updateTimers, State.input_setEnv, he, hhalted]
  split
  · rfl
  · split <;> rfl

/-- A step commutes with a change of the inputs after its own. -/
theorem step_setEnv {s t : State} {e : Environment} (he : e.current = s.input) (h : step s = .next t) :
    step (s.setEnv e) = .next (t.setEnv e.advance) := by
  obtain ⟨hh, rfl⟩ | ⟨hh, hp, rfl⟩ | ⟨hh, hp, hd, rfl⟩ | ⟨i, u, hh, hp, hd, hu, rfl⟩ := step_cases h
  · exact step_of_halted hh
  · refine step_of_unfetchable (s := s.setEnv e) hh ?_
    rw [← Bool.not_eq_true, State.fetchable_iff] at hp
    exact Nat.lt_of_not_le hp
  · exact step_of_unknown (s := s.setEnv e) hh ((State.fetchable_iff s).1 hp) hd
  · have hexec : exec i (s.setEnv e).beginStep = .next (u.setEnv e) := exec_setEnv (s := s.beginStep) he hu
    have hinput : e.current = u.input := by
      rw [he, State.input, State.input, exec_env hu, State.beginStep_env]
    rw [step_of_instr (s := s.setEnv e) hh ((State.fetchable_iff s).1 hp) hd, hexec, finishResult,
      finishStep_setEnv hinput]

/-- Settles O59: the second state is the first with other inputs to come, and a step commutes with that. -/
theorem stepIsAFunctionOfCoreStateAndInputs : Obligations.StepIsAFunctionOfCoreStateAndInputs := by
  intro s s' t t' hcore hinput ht ht'
  have hs' : s' = s.setEnv s'.env := State.eq_setEnv_of_coreState hcore
  rw [hs', step_setEnv hinput.symm ht] at ht'
  cases ht'
  exact ⟨(State.coreState_setEnv t _).symm, rfl⟩

/-! ### The invariant (10_state.md R31) -/

/-- The clauses of the invariant on memory, PC and the stack entries in use. -/
def State.AddressesBounded (s : State) : Prop :=
  s.mem.wf = true ∧ s.pc.toNat ≤ 0x10FE ∧ ∀ k : Fin 16, k.val < s.sp.val → (s.stack.get k).toNat ≤ 0x10FE

theorem State.Inv.addressesBounded {s : State} (h : s.Inv) : s.AddressesBounded := by
  obtain ⟨hmem, hpc, hstack, -, -⟩ := h
  exact ⟨hmem, hpc, hstack⟩

theorem State.Inv.fault_eq_clear {s : State} (h : s.Inv) (hrun : s.halted = false) : s.fault = FaultRecord.clear := by
  obtain ⟨-, -, -, hclear, -⟩ := h
  exact hclear ((not_halted_iff s).1 hrun)

/-- A core that runs with FAULT clear owes the invariant its addresses only. -/
theorem inv_of_fault_clear {s : State} (h : s.AddressesBounded) (hf : s.fault = FaultRecord.clear) : s.Inv := by
  obtain ⟨hmem, hpc, hstack⟩ := h
  have hrun : s.halted = false := (State.not_halted_iff s).2 (by rw [hf]; rfl)
  exact ⟨hmem, hpc, hstack, fun _ => hf, fun hh => by rw [hrun] at hh; cases hh⟩

/-- A fault entry shows a cause and status Running. -/
theorem inv_enterFault {s : State} (h : s.AddressesBounded) {c : FaultCause} (hc : c ≠ .none) (w a : Word) :
    (s.enterFault c w a).Inv := by
  obtain ⟨hmem, hpc, hstack⟩ := h
  exact ⟨hmem, hpc, hstack, fun h0 => absurd h0 hc, fun _ => rfl⟩

/-- The invariant does not speak of the inputs to come. -/
theorem inv_consumeInput {s : State} (h : s.Inv) : s.consumeInput.Inv := h

/-- Nor of the timers. -/
theorem inv_finishStep {s : State} (h : s.Inv) : s.finishStep.Inv := by
  simpa [State.Inv] using h

/-! #### The execute phase keeps the addresses bounded -/

theorem guardRange_elim {P : State → Prop} {s t : State} {n : Nat}
    (ht : n = 0 ∨ s.i.toNat + n ≤ 0x1000 → P t) (hf : ∀ c a, P (s.raiseFault c a)) : P (s.guardRange n t) := by
  by_cases h : n = 0 ∨ s.i.toNat + n ≤ 0x1000
  · rw [State.guardRange_admitted s t h]
    exact ht h
  · rw [State.guardRange_faults s t (by omega) (by omega)]
    exact hf _ _

theorem guardKey_elim {P : State → Prop} {s t : State} {x : Reg}
    (ht : P t) (hf : ∀ c a, P (s.raiseFault c a)) : P (s.guardKey x t) := by
  rcases State.guardKey_cases s x t with e | e <;> rw [e]
  · exact ht
  · exact hf _ _

namespace State.AddressesBounded

variable {s : State}

theorem setPc (h : s.AddressesBounded) {a : Word} (ha : a.toNat ≤ 0x10FE) : (s.setPc a).AddressesBounded := by
  obtain ⟨hmem, -, hstack⟩ := h
  exact ⟨hmem, ha, hstack⟩

/-- A store of bytes that exist keeps the canonical form. -/
theorem writeBytes (h : s.AddressesBounded) {a : Nat} {bs : List Byte} (ha : a + bs.length ≤ 0x1000) :
    (s.setMem (s.mem.writeBytes a bs)).AddressesBounded := by
  obtain ⟨hmem, hpc, hstack⟩ := h
  exact ⟨Memory.wf_writeBytes bs a hmem ha, hpc, hstack⟩

/-- PC taken back to the instruction's own address. -/
theorem stepBack (h : s.AddressesBounded) (hpc : 2 ≤ s.pc.toNat) : (s.setPc (s.pc - 2)).AddressesBounded := by
  refine h.setPc ?_
  obtain ⟨-, hle, -⟩ := h
  rw [BitVec.toNat_sub_of_le (by simpa [BitVec.le_def] using hpc)]
  omega

theorem raiseFault (h : s.AddressesBounded) (hpc : 2 ≤ s.pc.toNat) (c : FaultCause) (a : Word) :
    (s.raiseFault c a).AddressesBounded := h.stepBack hpc

/-- The entry a push adds is bounded as it was bounded in PC. -/
theorem push {t : State} (h : s.AddressesBounded) {a : Word} (ha : a.toNat ≤ 0x10FE) (hp : s.push a = some t) :
    t.AddressesBounded := by
  obtain ⟨hmem, hpc, hstack⟩ := h
  obtain ⟨hsp, ht, hget⟩ := push_spec s hp
  refine ⟨by rw [ht]; exact hmem, by rw [ht]; exact hpc, fun k hk => ?_⟩
  rw [hget]
  split
  · exact ha
  · exact hstack k (by omega)

/-- A pop answers an entry that was in use. -/
theorem pop {t : State} (h : s.AddressesBounded) {a : Word} (hp : s.pop = some (a, t)) :
    t.AddressesBounded ∧ a.toNat ≤ 0x10FE := by
  obtain ⟨hmem, hpc, hstack⟩ := h
  obtain ⟨hsp, ht, htop⟩ := pop_spec s hp
  have hlt := s.sp.isLt
  have hsame : t.stack = s.stack := by rw [ht]
  refine ⟨⟨by rw [ht]; exact hmem, by rw [ht]; exact hpc, fun k hk => ?_⟩, ?_⟩
  · rw [hsame]
    exact hstack k (by omega)
  · rw [htop ⟨t.sp.val, by omega⟩ hsp]
    exact hstack _ (by simp only; omega)

end State.AddressesBounded

/-- PC does not wrap where a step or a skip advances it. -/
theorem toNat_add_two {a : Word} (h : a.toNat ≤ 0x1000) : (a + 2).toNat = a.toNat + 2 := by
  have htwo : (2 : Word).toNat = 2 := rfl
  rw [BitVec.toNat_add]
  omega

/-- The execute phase of a word that could be fetched: PC is past it, at most 0x1000, and no instruction takes
PC further than BNNN's 0xFFF + 0xFF (R15). -/
theorem exec_addressesBounded {i : Instr} {s t : State} (hs : s.AddressesBounded) (hlo : 2 ≤ s.pc.toNat)
    (hhi : s.pc.toNat ≤ 0x1000) (h : exec i s = .next t) : t.AddressesBounded := by
  have hfault : ∀ c a, (s.raiseFault c a).AddressesBounded := hs.raiseFault hlo
  have hskip : ∀ c : Bool, (s.skipIf c).AddressesBounded
    | true => hs.setPc (by rw [if_pos rfl, toNat_add_two hhi]; omega)
    | false => hs
  have hjump : ∀ nnn : Addr12, (zextAddr nnn).toNat ≤ 0xFFF := fun nnn => by
    have := nnn.isLt
    rw [zextAddr_toNat]
    omega
  cases i with
  | ret =>
    refine exec_elim h rfl ?_
    cases hp : s.pop with
    | none => exact hfault _ _
    | some p =>
      obtain ⟨hu, ha⟩ := hs.pop (a := p.1) (t := p.2) hp
      exact hu.setPc ha
  | call nnn =>
    refine exec_elim h rfl ?_
    cases hp : s.push s.pc with
    | none => exact hfault _ _
    | some u => exact (hs.push (by omega) hp).setPc ((hjump nnn).trans (by decide))
  | jp nnn => exact exec_elim h rfl (hs.setPc ((hjump nnn).trans (by decide)))
  | jpV0 nnn =>
    refine exec_elim h rfl (hs.setPc ?_)
    have hnnn := hjump nnn
    have hv0 := (s.readV regV0).isLt
    rw [BitVec.toNat_add, zextByte_toNat]
    omega
  | seImm | sneImm | seReg | sneReg => exact exec_elim h rfl (hskip _)
  | skp | sknp => exact exec_elim h rfl (guardKey_elim (hskip _) hfault)
  | ldKey x =>
    refine exec_elim h rfl ?_
    cases lowestKey s.input with
    | some k => exact hs
    | none => exact hs.stepBack hlo
  | bcd | store =>
    exact exec_elim h rfl (guardRange_elim (fun hr => hs.writeBytes (by simpa [bcdDigits] using hr)) hfault)
  | drw | load => exact exec_elim h rfl (guardRange_elim (fun _ => hs) hfault)
  | _ =>
    refine exec_elim h rfl ?_
    exact hs

/-- Settles O17: a step of a core that runs enters a fault or keeps FAULT clear, and either way its addresses
stay bounded. -/
theorem everyStepKeepsTheInvariant : Obligations.EveryStepKeepsTheInvariant := by
  intro s t hs h
  have hb := hs.addressesBounded
  obtain ⟨-, rfl⟩ | ⟨-, -, rfl⟩ | ⟨-, -, -, rfl⟩ | ⟨i, u, hrun, hp, -, hu, rfl⟩ := step_cases h
  · exact inv_consumeInput hs
  · exact inv_consumeInput (inv_enterFault hb (by decide) _ _)
  · exact inv_consumeInput (inv_enterFault hb (by decide) _ _)
  · refine inv_finishStep ?_
    rcases exec_fault_cases hu with hf | ⟨c, a, hc, rfl⟩
    · refine inv_of_fault_clear ?_ (hf.trans (hs.fault_eq_clear hrun))
      rw [State.fetchable_iff] at hp
      have hpc : s.beginStep.pc.toNat = s.pc.toNat + 2 := toNat_add_two (by omega)
      have hbegin : s.beginStep.AddressesBounded := by
        obtain ⟨hmem, -, hstack⟩ := hb
        exact ⟨hmem, by omega, hstack⟩
      exact exec_addressesBounded hbegin (by omega) (by omega) hu
    · rw [raiseFault_beginStep]
      exact inv_enterFault hb hc _ _

/-- A memory in canonical form, and all else as at reset. -/
theorem inv_reset_setMem {m : Memory} (hm : m.wf = true) : (State.reset.setMem m).Inv :=
  inv_of_fault_clear ⟨hm, (by decide : State.reset.pc.toNat ≤ 0x10FE), fun k hk => absurd hk (Nat.not_lt_zero _)⟩ rfl

/-- Settles O19: the load image is canonical. -/
theorem loadedStateMeetsTheInvariant : Obligations.LoadedStateMeetsTheInvariant :=
  fun fontset _ hfit => inv_reset_setMem (Memory.wf_loadImage fontset hfit)

/-- Settles O18: the empty list of cells is canonical. -/
theorem resetStateMeetsTheInvariant : Obligations.ResetStateMeetsTheInvariant :=
  inv_reset_setMem Memory.wf_nil

end Sys2Proof.Machine
end

section
/-! PROOFS of the family 20_memory.md: a word stored by FX55 over the next instruction, and a word placed at PC. -/

namespace Sys2Proof.Machine

/-! ### The store of FX55 (20_memory.md R50) -/

/-- FX55 with its whole range in memory raises no fault. -/
theorem exec_store_of_fits {s : State} {x : Reg} (hfit : s.i.toNat + x.val ≤ 0xFFF) :
    exec (.store x) s = .next (s.setMem (s.mem.writeBytes s.i.toNat (s.regBlock x))) :=
  congrArg Host.Outcome.next (State.guardRange_admitted s _ (.inr (by omega)))

/-- Each register up to V[x] is read back at its place from `a`. -/
theorem read_writeBytes_regBlock {m : Memory} (hm : m.wf = true) (s : State) {a : Nat} {x k : Reg}
    (hfit : a + x.val ≤ 0xFFF) (hk : k.val ≤ x.val) :
    (m.writeBytes a (s.regBlock x)).read (a + k.val) = s.readV k := by
  have hlen := length_regBlock s x
  rw [Memory.read_writeBytes_inside _ a k.val (by omega) hm (by omega), getElem_regBlock]

/-- A register block of two or more bytes begins with the word V0 ++ V1. -/
theorem readWord_writeBytes_regBlock {m : Memory} (hm : m.wf = true) (s : State) {a : Nat} {x : Reg}
    (hfit : a + x.val ≤ 0xFFF) (hx : 1 ≤ x.val) :
    (m.writeBytes a (s.regBlock x)).readWord a = wordOfBytes (s.readV 0) (s.readV 1) :=
  congrArg₂ wordOfBytes (read_writeBytes_regBlock hm s (k := 0) hfit (Nat.zero_le _))
    (read_writeBytes_regBlock hm s (k := 1) hfit hx)

/-- Settles O26: the block is stored at I, which is where PC stands after the step. -/
theorem storedWordIsFetchedNext : Obligations.StoredWordIsFetchedNext := by
  intro s t x hm hrun hpc hd hx hi hfit h
  rw [step_of_instr hrun hpc hd, exec_store_of_fits (s := s.beginStep) hfit] at h
  cases h
  have hword := readWord_writeBytes_regBlock hm s.beginStep hfit hx
  rw [hi] at hword
  simpa [hi] using hword

/-! ### Placing a word where the next step fetches (20_memory.md R42, 40_cycle.md R84) -/

/-- A table word of 16 bits is the whole word. -/
theorem tableWord_sixteen (w : Nat) : tableWord 16 w = BitVec.ofNat 16 w :=
  BitVec.eq_of_toNat_eq (by simp [tableWord])

/-- In a core that could run, placing a word is a store of its two bytes at PC and nothing else. -/
theorem State.placeWord_of_running {s : State} (hrun : s.halted = false) (hpc : s.pc.toNat ≤ 0xFFE) (w : Word) :
    s.placeWord w = s.setMem (s.mem.writeBytes s.pc.toNat (bytesOfWord w)) := by
  simp [placeWord, setMem, hrun, (fetchable_iff s).2 hpc]

/-- Whatever the state, with its memory canonical: the step runs the instruction the placed word decodes to. -/
theorem step_placeWord {s : State} {w : Word} {i : Instr} (hm : s.mem.wf = true) (hd : decode w = .instr i) :
    step (s.placeWord w) = finishResult (exec i (s.placeWord w).beginStep) := by
  obtain ⟨hrun, hfetch, hword, -⟩ := State.placeWord_spec s w hm
  exact step_of_instr hrun ((State.fetchable_iff _).1 hfetch) ((congrArg decode hword).trans hd)

/-- Settles O30: the placed word is the one fetched, and where the core could run PC and FAULT stay. -/
theorem placedWordIsTheOneThatRuns : Obligations.PlacedWordIsTheOneThatRuns := by
  intro s w i hm hd
  rw [← tableWord_sixteen] at hd
  refine ⟨by rw [decodeTableWord_eq, hd]; rfl, step_placeWord hm hd, fun hrun hpc => ?_⟩
  rw [withFetchWord_eq, State.placeWord_of_running hrun hpc]
  have hlen : (bytesOfWord (tableWord 16 w)).length = 2 := rfl
  exact ⟨rfl, fun a h0 h1 => Memory.read_writeBytes_outside _ _ _ (by omega)⟩

end Sys2Proof.Machine
end

section
/-! PROOFS of the family 30_encoding.md: the decoder by family, the Unknown words, the decoder and the encoder as
inverses, and the opcode map. -/

namespace Sys2Proof

/-! ### The decoder by family (R64) -/

/-- What the decoder can answer: one case for each value of OP. -/
theorem decode_cases (w : Word) :
    (opField w = 0x0 ∧ decode w = decodeFamily0 w) ∨
    (opField w = 0x1 ∧ decode w = .instr (.jp (nnnField w))) ∨
    (opField w = 0x2 ∧ decode w = .instr (.call (nnnField w))) ∨
    (opField w = 0x3 ∧ decode w = .instr (.seImm (xField w) (nnField w))) ∨
    (opField w = 0x4 ∧ decode w = .instr (.sneImm (xField w) (nnField w))) ∨
    (opField w = 0x5 ∧ decode w = if nField w = 0 then .instr (.seReg (xField w) (yField w)) else .unknown) ∨
    (opField w = 0x6 ∧ decode w = .instr (.ldImm (xField w) (nnField w))) ∨
    (opField w = 0x7 ∧ decode w = .instr (.addImm (xField w) (nnField w))) ∨
    (opField w = 0x8 ∧ decode w = decodeFamily8 w) ∨
    (opField w = 0x9 ∧ decode w = if nField w = 0 then .instr (.sneReg (xField w) (yField w)) else .unknown) ∨
    (opField w = 0xA ∧ decode w = .instr (.ldI (nnnField w))) ∨
    (opField w = 0xB ∧ decode w = .instr (.jpV0 (nnnField w))) ∨
    (opField w = 0xC ∧ decode w = .instr (.rnd (xField w) (nnField w))) ∨
    (opField w = 0xD ∧ decode w = .instr (.drw (xField w) (yField w) (nField w))) ∨
    (opField w = 0xE ∧ decode w = decodeFamilyE w) ∨
    (opField w = 0xF ∧ decode w = decodeFamilyF w) := by
  have hop : ∀ o : BitVec 4, o = 0x0 ∨ o = 0x1 ∨ o = 0x2 ∨ o = 0x3 ∨ o = 0x4 ∨ o = 0x5 ∨ o = 0x6 ∨ o = 0x7 ∨
      o = 0x8 ∨ o = 0x9 ∨ o = 0xA ∨ o = 0xB ∨ o = 0xC ∨ o = 0xD ∨ o = 0xE ∨ o = 0xF := by decide
  rcases hop (opField w) with h | h | h | h | h | h | h | h | h | h | h | h | h | h | h | h <;> simp [decode, h]

theorem decodeFamily0_eq_unknown_iff (w : Word) : decodeFamily0 w = .unknown ↔ w ≠ 0x00E0 ∧ w ≠ 0x00EE := by
  simp [decodeFamily0, ite_eq_iff]

theorem decodeFamily8_eq_unknown_iff (w : Word) :
    decodeFamily8 w = .unknown ↔ 8 ≤ (nField w).val ∧ nField w ≠ 0xE := by
  unfold decodeFamily8
  generalize nField w = n
  revert n
  simp [Fin.forall_fin_succ]

theorem decodeFamilyE_eq_unknown_iff (w : Word) :
    decodeFamilyE w = .unknown ↔ nnField w ≠ 0x9E ∧ nnField w ≠ 0xA1 := by
  simp [decodeFamilyE, ite_eq_iff]

theorem decodeFamilyF_eq_unknown_iff (w : Word) :
    decodeFamilyF w = .unknown ↔ nnField w ∉ [0x07, 0x0A, 0x15, 0x18, 0x1E, 0x29, 0x33, 0x55, 0x65] := by
  simp [decodeFamilyF, ite_eq_iff]

/-- Settles O4, family by family. -/
theorem unknownWordsFamilyByFamily : Obligations.UnknownWordsFamilyByFamily := by
  intro w
  rcases decode_cases w with ⟨ho, hd⟩ | ⟨ho, hd⟩ | ⟨ho, hd⟩ | ⟨ho, hd⟩ | ⟨ho, hd⟩ | ⟨ho, hd⟩ | ⟨ho, hd⟩ | ⟨ho, hd⟩ |
    ⟨ho, hd⟩ | ⟨ho, hd⟩ | ⟨ho, hd⟩ | ⟨ho, hd⟩ | ⟨ho, hd⟩ | ⟨ho, hd⟩ | ⟨ho, hd⟩ | ⟨ho, hd⟩ <;>
    simp [ho, hd, decodeFamily0_eq_unknown_iff, decodeFamily8_eq_unknown_iff, decodeFamilyE_eq_unknown_iff,
      decodeFamilyF_eq_unknown_iff]

/-- Settles O5, by running the decoder. -/
theorem sampleWordsDecode : Obligations.SampleWordsDecode := by
  unfold Obligations.SampleWordsDecode
  decide

/-! ### Decoding an encoded instruction -/

/-- Settles O1, format by format (R62): the operand fields of the encoder's word hold the operands, and OP, N or NN
is that of the row's match. -/
theorem decodeOfEncodeIsTheInstruction : Obligations.DecodeOfEncodeIsTheInstruction := by
  intro i _
  cases i with
  | cls | ret => rfl
  | jp nnn | call nnn | ldI nnn | jpV0 nnn =>
    rw [encode, decode, opField_wordNNN, nnnField_wordNNN] <;> rfl
  | seImm x nn | sneImm x nn | ldImm x nn | addImm x nn | rnd x nn =>
    rw [encode, decode, opField_wordXNN, xField_wordXNN, nnField_wordXNN] <;> rfl
  | seReg x y | sneReg x y =>
    rw [encode, decode, opField_wordXY, nField_wordXY, xField_wordXY, yField_wordXY] <;> rfl
  | drw x y n =>
    rw [encode, decode, opField_wordXYN, xField_wordXYN, yField_wordXYN, nField_wordXYN] <;> rfl
  | ldReg x y | or x y | and x y | xor x y | addReg x y | sub x y | subn x y =>
    rw [encode, decode, opField_wordXY]
    change decodeFamily8 _ = _
    rw [decodeFamily8, nField_wordXY, xField_wordXY, yField_wordXY] <;> rfl
  | shr x | shl x =>
    rw [encode, decode, opField_wordX]
    change decodeFamily8 _ = _
    rw [decodeFamily8, nField_wordX, xField_wordX] <;> rfl
  | skp x | sknp x =>
    rw [encode, decode, opField_wordX]
    change decodeFamilyE _ = _
    rw [decodeFamilyE, nnField_wordX, xField_wordX] <;> rfl
  | ldFromDt x | ldKey x | ldDt x | ldSt x | addI x | ldFont x | bcd x | store x | load x =>
    rw [encode, decode, opField_wordX]
    change decodeFamilyF _ = _
    rw [decodeFamilyF, nnField_wordX, xField_wordX] <;> rfl

/-! ### Encoding a decoded word -/

/-- Two words with the same OP and NNN are equal. -/
theorem word_eq_of_opField_nnnField {a b : Word} (ho : opField a = opField b) (hn : nnnField a = nnnField b) :
    a = b := by
  have ha := nnnField_toNat a
  have hb := nnnField_toNat b
  rw [hn] at ha
  refine word_eq_of_fields ho (Fin.ext ?_) (Fin.ext ?_) (Fin.ext ?_) <;> omega

/-- Two words with the same OP, X and NN are equal. -/
theorem word_eq_of_opField_xField_nnField {a b : Word} (ho : opField a = opField b) (hx : xField a = xField b)
    (hn : nnField a = nnField b) : a = b := by
  have ha := nnField_toNat a
  have hb := nnField_toNat b
  rw [hn] at ha
  refine word_eq_of_fields ho hx (Fin.ext ?_) (Fin.ext ?_) <;> omega

theorem yField_wordX (base : Word) (x : Reg) : yField (wordX base x) = yField base := by simp [wordX, yField_or]

section
variable {base w : Word} (ho : opField w = opField base)
include ho

theorem wordNNN_fields (hb : nnnField base = 0) : wordNNN base (nnnField w) = w :=
  word_eq_of_opField_nnnField (by rw [opField_wordNNN, ho]) (nnnField_wordNNN _ _ hb)

theorem wordXNN_fields (hx : xField base = 0) (hn : nnField base = 0) :
    wordXNN base (xField w) (nnField w) = w :=
  word_eq_of_opField_xField_nnField (by rw [opField_wordXNN, ho]) (xField_wordXNN _ _ _ hx) (nnField_wordXNN _ _ _ hn)

theorem wordX_fields (hx : xField base = 0) (hn : nnField w = nnField base) : wordX base (xField w) = w :=
  word_eq_of_opField_xField_nnField (by rw [opField_wordX, ho]) (xField_wordX _ _ hx) (by rw [nnField_wordX, hn])

theorem wordXY_fields (hx : xField base = 0) (hy : yField base = 0) (hn : nField w = nField base) :
    wordXY base (xField w) (yField w) = w :=
  word_eq_of_fields (by rw [opField_wordXY, ho]) (xField_wordXY _ _ _ hx) (yField_wordXY _ _ _ hy)
    (by rw [nField_wordXY, hn])

theorem wordXYN_fields (hx : xField base = 0) (hy : yField base = 0) (hn : nField base = 0) :
    wordXYN base (xField w) (yField w) (nField w) = w :=
  word_eq_of_fields (by rw [opField_wordXYN, ho]) (xField_wordXYN _ _ _ _ hx) (yField_wordXYN _ _ _ _ hy)
    (nField_wordXYN _ _ _ _ hn)

end

theorem opField_and (a b : Word) : opField (a &&& b) = opField a &&& opField b := by
  simp [opField, BitVec.extractLsb'_and]

theorem xField_and (a b : Word) : xField (a &&& b) = xField a &&& xField b := by
  simp [xField, BitVec.extractLsb'_and]

theorem yField_and (a b : Word) : yField (a &&& b) = yField a &&& yField b := by
  simp [yField, BitVec.extractLsb'_and]

theorem nField_and (a b : Word) : nField (a &&& b) = nField a &&& nField b := by
  simp [nField, BitVec.extractLsb'_and]

theorem nnField_and (a b : Word) : nnField (a &&& b) = nnField a &&& nnField b := by
  simp [nnField, BitVec.extractLsb'_and]

theorem fin16_and_fifteen (n : Fin 16) : n &&& 0xF = n := by revert n; decide
theorem fin16_and_zero (n : Fin 16) : n &&& 0 = 0 := by revert n; decide

/-- The word of 8XY6 or 8XYE with its ignored Y cleared. -/
theorem wordX_fields_clearY {base w : Word} (ho : opField w = opField base) (hx : xField base = 0)
    (hy : yField base = 0) (hn : nField w = nField base) : wordX base (xField w) = w &&& 0xFF0F := by
  have how : opField (w &&& 0xFF0F) = opField base := by rw [opField_and, ← ho]; exact BitVec.and_allOnes
  have hxw : xField (w &&& 0xFF0F) = xField w := by rw [xField_and]; exact fin16_and_fifteen _
  have hyw : yField (w &&& 0xFF0F) = 0 := by rw [yField_and]; exact fin16_and_zero _
  have hnw : nField (w &&& 0xFF0F) = nField base := by rw [nField_and, ← hn]; exact fin16_and_fifteen _
  exact word_eq_of_fields (by rw [opField_wordX, how]) (by rw [xField_wordX _ _ hx, hxw])
    (by rw [yField_wordX, hy, hyw]) (by rw [nField_wordX, hnw])

/-- Settles O2, family by family: OP, N or NN of the word is that of the row's match, and the operands are the
word's other fields. -/
theorem encodeOfDecodeRestoresTheWord : Obligations.EncodeOfDecodeRestoresTheWord := by
  intro w i h
  rcases decode_cases w with ⟨ho, hd⟩ | ⟨ho, hd⟩ | ⟨ho, hd⟩ | ⟨ho, hd⟩ | ⟨ho, hd⟩ | ⟨ho, hd⟩ | ⟨ho, hd⟩ | ⟨ho, hd⟩ |
    ⟨ho, hd⟩ | ⟨ho, hd⟩ | ⟨ho, hd⟩ | ⟨ho, hd⟩ | ⟨ho, hd⟩ | ⟨ho, hd⟩ | ⟨ho, hd⟩ | ⟨ho, hd⟩ <;> rw [hd] at h
  · unfold decodeFamily0 at h
    split_ifs at h with hw hw <;> cases h <;> exact hw.symm
  · cases h; exact wordNNN_fields ho rfl
  · cases h; exact wordNNN_fields ho rfl
  · cases h; exact wordXNN_fields ho rfl rfl
  · cases h; exact wordXNN_fields ho rfl rfl
  · split_ifs at h with hn
    cases h; exact wordXY_fields ho rfl rfl hn
  · cases h; exact wordXNN_fields ho rfl rfl
  · cases h; exact wordXNN_fields ho rfl rfl
  · unfold decodeFamily8 at h
    split at h <;> rename_i hn <;> cases h
    case h_7 | h_9 => exact wordX_fields_clearY ho rfl rfl (Fin.ext hn)
    all_goals exact wordXY_fields ho rfl rfl (Fin.ext hn)
  · split_ifs at h with hn
    cases h; exact wordXY_fields ho rfl rfl hn
  · cases h; exact wordNNN_fields ho rfl
  · cases h; exact wordNNN_fields ho rfl
  · cases h; exact wordXNN_fields ho rfl rfl
  · cases h; exact wordXYN_fields ho rfl rfl rfl
  · unfold decodeFamilyE at h
    split_ifs at h <;> cases h <;> exact wordX_fields ho rfl ‹_›
  · unfold decodeFamilyF at h
    split_ifs at h <;> cases h <;> exact wordX_fields ho rfl ‹_›

/-! ### The opcode map (R65) -/

open Laws in
/-- Every instruction's word is selected by the row named as the instruction. -/
theorem encode_selected_by_own_row : ∀ i : Instr, EncodeRow.Statement i
  | .cls => EncodeRow.cls
  | .ret => EncodeRow.ret
  | .jp _ => EncodeRow.jp _
  | .call _ => EncodeRow.call _
  | .seImm _ _ => EncodeRow.seImm _ _
  | .sneImm _ _ => EncodeRow.sneImm _ _
  | .seReg _ _ => EncodeRow.seReg _ _
  | .ldImm _ _ => EncodeRow.ldImm _ _
  | .addImm _ _ => EncodeRow.addImm _ _
  | .ldReg _ _ => EncodeRow.ldReg _ _
  | .or _ _ => EncodeRow.or _ _
  | .and _ _ => EncodeRow.and _ _
  | .xor _ _ => EncodeRow.xor _ _
  | .addReg _ _ => EncodeRow.addReg _ _
  | .sub _ _ => EncodeRow.sub _ _
  | .shr _ => EncodeRow.shr _
  | .subn _ _ => EncodeRow.subn _ _
  | .shl _ => EncodeRow.shl _
  | .sneReg _ _ => EncodeRow.sneReg _ _
  | .ldI _ => EncodeRow.ldI _
  | .jpV0 _ => EncodeRow.jpV0 _
  | .rnd _ _ => EncodeRow.rnd _ _
  | .drw _ _ _ => EncodeRow.drw _ _ _
  | .skp _ => EncodeRow.skp _
  | .sknp _ => EncodeRow.sknp _
  | .ldFromDt _ => EncodeRow.ldFromDt _
  | .ldKey _ => EncodeRow.ldKey _
  | .ldDt _ => EncodeRow.ldDt _
  | .ldSt _ => EncodeRow.ldSt _
  | .addI _ => EncodeRow.addI _
  | .ldFont _ => EncodeRow.ldFont _
  | .bcd _ => EncodeRow.bcd _
  | .store _ => EncodeRow.store _
  | .load _ => EncodeRow.load _

/-- Rows 8XY6 and 8XYE do not look at the ignored Y. -/
theorem selects_clearY {r : OpcodeRow} (hr : r ∈ opcodeRows) (hp : r.pattern = "8XY6" ∨ r.pattern = "8XYE")
    (w : Word) : r.selects (w &&& 0xFF0F) = r.selects w := by
  have hmask : ∀ q ∈ opcodeRows, q.pattern = "8XY6" ∨ q.pattern = "8XYE" → 0xFF0F &&& q.mask = q.mask := by decide
  rw [OpcodeRow.selects, OpcodeRow.selects, BitVec.and_assoc, hmask r hr hp]

/-- A word that decodes is selected by its instruction's row, as the encoder's word is. -/
theorem decode_selected_by_own_row {w : Word} {i : Instr} (h : decode w = .instr i) :
    ∃ r ∈ opcodeRows, r.pattern = i.pattern ∧ r.selects w = true := by
  obtain ⟨r, hr, hp, hs⟩ := encode_selected_by_own_row i
  rw [encodeOfDecodeRestoresTheWord w i h] at hs
  refine ⟨r, hr, hp, ?_⟩
  cases i with
  | shr x => exact (selects_clearY hr (.inl hp) w).symm.trans hs
  | shl x => exact (selects_clearY hr (.inr hp) w).symm.trans hs
  | _ => exact hs

/-- The bits of a word that R65 tests in its family. -/
def familyMask (w : Word) : Word :=
  match (opField w).toNat with
  | 0x0 => 0xFFFF
  | 0x5 | 0x8 | 0x9 => 0xF00F
  | 0xE | 0xF => 0xF0FF
  | _ => 0xF000

theorem opField_and_familyMask (w : Word) : opField (w &&& familyMask w) = opField w := by
  have hop : opField (familyMask w) = BitVec.allOnes 4 := by unfold familyMask; split <;> rfl
  rw [opField_and, hop, BitVec.and_allOnes]

/-- The tested bits of a word that a row selects are the row's match. -/
theorem value_of_selects {r : OpcodeRow} {w : Word} (hr : r ∈ opcodeRows) (hs : r.selects w = true) :
    r.value = w &&& familyMask w := by
  have hrows : ∀ q ∈ opcodeRows, q.mask = familyMask q.value ∧ opField q.mask = BitVec.allOnes 4 := by decide
  obtain ⟨hmask, hop⟩ := hrows r hr
  have hvalue : w &&& r.mask = r.value := of_decide_eq_true hs
  have hfamily : opField r.value = opField w := by rw [← hvalue, opField_and, hop, BitVec.and_allOnes]
  rw [← hvalue, hmask, familyMask, familyMask, hfamily]

/-- One row at most selects a word: the 34 matches are distinct. -/
theorem row_eq_of_selects {w : Word} {r q : OpcodeRow} (hr : r ∈ opcodeRows) (hq : q ∈ opcodeRows)
    (hrs : r.selects w = true) (hqs : q.selects w = true) : r = q := by
  have hdistinct : (opcodeRows.map OpcodeRow.value).Nodup := by decide
  exact List.inj_on_of_nodup_map hdistinct hr hq ((value_of_selects hr hrs).trans (value_of_selects hq hqs).symm)

/-- Families 5, 8 and 9 test N. -/
theorem nField_and_familyMask {w : Word} (ho : opField w = 0x5 ∨ opField w = 0x8 ∨ opField w = 0x9) :
    nField (w &&& familyMask w) = nField w := by
  have hn : nField (familyMask w) = 0xF := by rcases ho with ho | ho | ho <;> rw [familyMask, ho] <;> rfl
  rw [nField_and, hn, fin16_and_fifteen]

/-- Families E and F test NN. -/
theorem nnField_and_familyMask {w : Word} (ho : opField w = 0xE ∨ opField w = 0xF) :
    nnField (w &&& familyMask w) = nnField w := by
  have hnn : nnField (familyMask w) = BitVec.allOnes 8 := by rcases ho with ho | ho <;> rw [familyMask, ho] <;> rfl
  rw [nnField_and, hnn, BitVec.and_allOnes]

/-- Family 0 tests the whole word. -/
theorem and_familyMask {w : Word} (ho : opField w = 0x0) : w &&& familyMask w = w := by
  rw [familyMask, ho]
  exact BitVec.and_allOnes

/-- An Unknown word stays Unknown with the bits cleared that its family does not test. -/
theorem decode_and_familyMask_eq_unknown {w : Word} (h : decode w = .unknown) :
    decode (w &&& familyMask w) = .unknown := by
  rw [unknownWordsFamilyByFamily] at h ⊢
  rw [opField_and_familyMask]
  rcases h with ⟨ho, h⟩ | ⟨ho, h⟩ | ⟨ho, h⟩ | ⟨ho, h⟩ | ⟨ho, h⟩ | ⟨ho, h⟩
  · simpa [ho, and_familyMask] using h
  · simpa [ho, nField_and_familyMask] using h
  · simpa [ho, nField_and_familyMask] using h
  · simpa [ho, nField_and_familyMask] using h
  · simpa [ho, nnField_and_familyMask] using h
  · simpa [ho, nnField_and_familyMask] using h

/-- Settles O3: the row of a decoded word is its instruction's, and the row of an Unknown word would have an Unknown
match. -/
theorem decodeFollowsTheOpcodeMap : Obligations.DecodeFollowsTheOpcodeMap := by
  refine ⟨rfl, fun _ _ _ => row_eq_of_selects, fun _ _ => decode_selected_by_own_row, fun w h r hr => ?_⟩
  by_contra hs
  rw [Bool.not_eq_false] at hs
  have hvalues : ∀ q ∈ opcodeRows, decode q.value ≠ .unknown := by decide
  apply hvalues r hr
  rw [value_of_selects hr hs]
  exact decode_and_familyMask_eq_unknown h

end Sys2Proof
end

section
/-! PROOFS of the family 40_cycle.md: the phases of a step, the halted core, the timer update, STATUS, and what the
inputs of a step reach. -/

namespace Sys2Proof.Machine

/-! ### The execute phase of a step that begins in a core that runs -/

/-- The timer update sees the inputs the step began with. -/
theorem exec_beginStep_input {i : Instr} {s t : State} (h : exec i s.beginStep = .next t) : t.input = s.input :=
  congrArg Environment.current (exec_env (s := s.beginStep) h)

/-- A step that ends execute halted is the fault entry of the state it began in (60_exceptions.md R204). -/
theorem exec_beginStep_halted {i : Instr} {s t : State} (hrun : s.halted = false) (h : exec i s.beginStep = .next t)
    (ht : t.halted = true) : ∃ c a, t = s.enterFault c s.fetchedWord a := by
  rcases exec_fault_cases h with hf | ⟨c, a, -, rfl⟩
  · rw [State.halted_iff, hf] at ht
    exact absurd ((State.not_halted_iff s).1 hrun) ht
  · exact ⟨c, a, raiseFault_beginStep s c a⟩

/-- The two ways to write a decrement that stops at 0 (R88). -/
theorem decrement_eq (b : Byte) : State.decrement b = if 0 < b.toNat then b - 1 else b := by
  by_cases hb : b = 0
  · subst hb; rfl
  · have hpos : 0 < b.toNat := Nat.pos_of_ne_zero fun e => hb (BitVec.eq_of_toNat_eq e)
    rw [State.decrement, if_neg hb, if_pos hpos]

/-- Phase 6, timer by timer. -/
theorem updateTimers_eq (s : State) :
    s.updateTimers = { s with
      dt := if s.input.tick = true ∧ 0 < s.dt.toNat then s.dt - 1 else s.dt
      st := if s.input.tick = true ∧ 0 < s.st.toNat then s.st - 1 else s.st } := by
  by_cases htick : s.input.tick = true <;> simp [State.updateTimers, htick, decrement_eq]

/-- Settles O6: the halted check, the fetch, the decode and the execute phase each select one equation of the step. -/
theorem stepFollowsThePhases : Obligations.StepFollowsThePhases := by
  intro s
  refine ⟨step_of_halted, fun hrun hpc => ?_, fun hrun hpc hd => ?_, fun i t hrun hpc hd hx => ?_, fun t _ => rfl⟩
  · exact ⟨_, State.enterFault_spec s _ _ _, step_of_unfetchable hrun hpc⟩
  · exact ⟨_, State.enterFault_spec s _ _ _, step_of_unknown hrun hpc hd⟩
  · change exec i s.beginStep = .next t at hx
    rw [step_of_instr hrun hpc hd, hx, finishResult]
    refine ⟨fun ht => ?_, fun ht => ?_⟩
    · obtain ⟨c, a, rfl⟩ := exec_beginStep_halted hrun hx ht
      exact ⟨State.enterFault_spec s _ _ _, congrArg Host.Outcome.next (State.finishStep_of_halted _ ht)⟩
    · have hinput : t.input = s.input := exec_beginStep_input hx
      rw [State.finishStep_of_running t ht, updateTimers_eq, hinput]
      rfl

/-! ### Every step answers a next state, and a halted core stays as it is -/

/-- Settles O16: the step from each of its four kinds of state. -/
theorem everyStepAnswersNext : Obligations.EveryStepAnswersNext := by
  intro s
  cases hh : s.halted with
  | true => exact ⟨_, step_of_halted hh⟩
  | false =>
    rcases Nat.lt_or_ge s.pc.toNat 0xFFF with hpc | hpc
    · have hpc : s.pc.toNat ≤ 0xFFE := Nat.le_of_lt_succ hpc
      cases hd : decode (s.mem.readWord s.pc.toNat) with
      | unknown => exact ⟨_, step_of_unknown hh hpc hd⟩
      | instr i =>
        obtain ⟨u, hu⟩ := exec_answers_next i s.beginStep
        exact ⟨u.finishStep, by rw [step_of_instr hh hpc hd, hu, finishResult]⟩
    · exact ⟨_, step_of_unfetchable hh hpc⟩

theorem run_succ_of_step {n : Nat} {s s' : State} (h : step s = .next s') :
    Host.Core.run Sys2Proof.core (n + 1) s = Host.Core.run Sys2Proof.core n s' := by
  have hcore : Sys2Proof.core.step s = .next s' := h
  simp only [Host.Core.run, hcore]

/-- A run of a halted core moves on the inputs to come and nothing else (R82). -/
theorem run_of_halted (n : Nat) : ∀ {s : State}, s.halted = true →
    ∃ e, Host.Core.run Sys2Proof.core n s = .next (s.setEnv e) := by
  induction n with
  | zero => exact fun {s} _ => ⟨s.env, rfl⟩
  | succ n ih =>
    intro s h
    obtain ⟨e, he⟩ := ih (s := s.haltedStep) h
    exact ⟨e, (run_succ_of_step (step_of_halted h)).trans he⟩

/-- Settles O7: the run ends in the first state with other inputs to come. -/
theorem haltedCoreChangesNothing : Obligations.HaltedCoreChangesNothing := by
  intro n s h
  obtain ⟨e, he⟩ := run_of_halted n h
  exact ⟨s.setEnv e, he, rfl, rfl⟩

/-! ### The timers (R88) -/

/-- A step of a halted core and a faulting step change neither timer. -/
theorem step_timers_of_halted {s t : State} (h : step s = .next t) (hh : s.halted = true ∨ t.halted = true) :
    t.dt = s.dt ∧ t.st = s.st := by
  obtain ⟨-, rfl⟩ | ⟨-, -, rfl⟩ | ⟨-, -, -, rfl⟩ | ⟨i, u, hrun, -, -, hu, rfl⟩ := step_cases h
  · exact ⟨rfl, rfl⟩
  · exact ⟨rfl, rfl⟩
  · exact ⟨rfl, rfl⟩
  · have hhalt : u.halted = true := by simpa [hrun] using hh
    rw [State.finishStep_of_halted u hhalt]
    obtain ⟨c, a, rfl⟩ := exec_beginStep_halted hrun hu hhalt
    exact ⟨rfl, rfl⟩

/-- Settles O10: phase 6 runs where execute left the core running, and only there. -/
theorem timersUpdateAfterExecute : Obligations.TimersUpdateAfterExecute := by
  refine fun s t h => ⟨step_timers_of_halted h, fun i u hrun hpc hd hu hurun => ?_⟩
  rw [step_of_instr hrun hpc hd, show exec i s.beginStep = .next u from hu, finishResult,
    State.finishStep_of_running u hurun] at h
  cases h
  obtain ⟨-, hdt, hst⟩ := State.updateTimers_spec u
  have hinput : u.input = s.input := exec_beginStep_input hu
  rw [hinput] at hdt hst
  exact ⟨hdt, hst⟩

/-! ### STATUS (R83) -/

theorem expectedFault_ne_none {i : Instr} {s : State} {f : FaultCause × Word} (h : expectedFault i s = some f) :
    f.1 ≠ .none := by
  cases i with
  | ret | call | skp | sknp | bcd | store | load | drw =>
    simp only [expectedFault] at h
    split_ifs at h
    cases h
    simp
  | _ => cases h

/-- An execute phase that leaves the core running is one in which no fault is expected. -/
theorem expectedFault_eq_none {i : Instr} {s t : State} (h : exec i s = .next t) (ht : t.halted = false) :
    expectedFault i s = none := by
  cases he : expectedFault i s with
  | none => rfl
  | some f =>
    have hraise := exec_raises h
    rw [RaisesExpected, he] at hraise
    rw [hraise, State.halted_raiseFault s (expectedFault_ne_none he)] at ht
    cases ht

/-- STATUS is written by 00E0 and DXYN alone. -/
theorem status_mem_writtenComponents_iff (i : Instr) :
    .status ∈ writtenComponents i ↔ i = .cls ∨ ∃ x y n, i = .drw x y n := by
  cases i <;> simp [writtenComponents]

/-- 00E0, and DXYN where its range is admitted, show RunningDraw. -/
theorem exec_draw_status {i : Instr} {s t : State} (hi : i = .cls ∨ ∃ x y n, i = .drw x y n)
    (h : exec i s = .next t) (hf : expectedFault i s = none) : t.status = .runningDraw := by
  obtain rfl | ⟨x, y, n, rfl⟩ := hi
  · exact exec_elim (P := fun u => u.status = .runningDraw) h rfl rfl
  · refine exec_elim (P := fun u => u.status = .runningDraw) h rfl ?_
    rw [State.guardRange_admitted s _ (by simp [expectedFault] at hf; omega)]
    rfl

/-- The execute phase that begins with STATUS Running ends with RunningDraw exactly if it completes 00E0 or DXYN. -/
theorem exec_beginStep_status_iff {i : Instr} {s t : State} (hrun : s.halted = false)
    (h : exec i s.beginStep = .next t) :
    t.status = .runningDraw ↔ t.halted = false ∧ (i = .cls ∨ ∃ x y n, i = .drw x y n) := by
  cases ht : t.halted with
  | true =>
    obtain ⟨c, a, rfl⟩ := exec_beginStep_halted hrun h ht
    simp
  | false =>
    have hf := expectedFault_eq_none h ht
    refine ⟨fun hst => ⟨rfl, ?_⟩, fun hi => exec_draw_status hi.2 h hf⟩
    by_contra hi
    rw [← status_mem_writtenComponents_iff] at hi
    obtain ⟨-, -, hcomps⟩ := exec_frame h hf
    have hkeep : t.status = .running := hcomps .status hi
    rw [hkeep] at hst
    cases hst

/-- Settles O12: `Inv` for the halted core, R204 for the faults, and the execute phase for the rest. -/
theorem statusShowsDrawingSteps : Obligations.StatusShowsDrawingSteps := by
  intro s t hs h
  obtain ⟨hh, rfl⟩ | ⟨-, -, rfl⟩ | ⟨-, -, -, rfl⟩ | ⟨i, u, hrun, hp, hd, hu, rfl⟩ := step_cases h
  · obtain ⟨-, -, -, -, hstatus⟩ := hs
    simp [State.haltedStep, hstatus hh, hh]
  · simp [State.fetchFaultStep, State.halted_enterFault]
  · simp [State.unknownStep, State.halted_enterFault]
  · rw [State.fetchable_iff] at hp
    rw [State.fetchedWord] at hd
    rw [State.finishStep_status, State.finishStep_halted, exec_beginStep_status_iff hrun hu]
    simp [hrun, hp, hd]

/-! ### The inputs of a step (R80) -/

/-- Every step moves on by one input, whatever it does. -/
theorem step_env {s t : State} (h : step s = .next t) : t.env = s.env.advance := by
  obtain ⟨-, rfl⟩ | ⟨-, -, rfl⟩ | ⟨-, -, -, rfl⟩ | ⟨i, u, -, -, -, hu, rfl⟩ := step_cases h
  · rfl
  · rfl
  · rfl
  · rw [State.finishStep_env, exec_env hu, State.beginStep_env]

/-- Settles O15: the input put in front is the oldest one. -/
theorem inputsAreTakenInOrder : Obligations.InputsAreTakenInOrder :=
  ⟨fun _ _ => rfl, fun _ _ h => step_env h⟩

/-- The two inputs agree on what the execute phase of the instruction reads of them: `keys` for EX9E, EXA1 and FX0A,
`rand` for CXNN (60_exceptions.md R214, R217). -/
def ReadInputsAgree (i : Instr) (a b : StepInput) : Prop :=
  match i with
  | .skp _ | .sknp _ | .ldKey _ => a.keys = b.keys
  | .rnd _ _ => a.rand = b.rand
  | _ => True

theorem keyPressed_congr {a b : StepInput} (h : a.keys = b.keys) : keyPressed a = keyPressed b := by
  funext k
  rw [keyPressed, keyPressed, h]

theorem lowestKey_congr {a b : StepInput} (h : a.keys = b.keys) : lowestKey a = lowestKey b := by
  rw [lowestKey, lowestKey, keyPressed_congr h]

/-- The execute phase commutes with a change of the inputs that its instruction does not read. -/
theorem exec_setEnv_of_reads {i : Instr} {s t : State} {e : Environment} (he : ReadInputsAgree i e.current s.input)
    (h : exec i s = .next t) : exec i (s.setEnv e) = .next (t.setEnv e) := by
  cases i with
  | skp | sknp =>
    cases h
    simp only [exec, execSkp, execSknp, State.input_setEnv, keyPressed_congr he]
    exact congrArg Host.Outcome.next (guardKey_setEnv rfl)
  | ldKey x =>
    cases h
    simp only [exec, execLdKey, State.input_setEnv, lowestKey_congr he]
    cases lowestKey s.input <;> rfl
  | rnd x nn =>
    have hrand : e.current.rand = s.input.rand := he
    cases h
    simp only [exec, execRnd, State.input_setEnv, hrand]
    rfl
  | ret =>
    cases h
    simp only [exec, execRet, pop_setEnv]
    cases s.pop <;> rfl
  | call nnn =>
    cases h
    simp only [exec, execCall, show (s.setEnv e).pc = s.pc from rfl, push_setEnv]
    cases s.push s.pc <;> rfl
  | drw | bcd | store | load =>
    cases h
    exact congrArg Host.Outcome.next (guardRange_setEnv rfl)
  | _ =>
    cases h
    rfl

/-- After execute, the timer tick is the only input read. -/
theorem finishStep_setEnv_of_tick {t : State} {e : Environment} (he : e.current.tick = t.input.tick) :
    (t.setEnv e).finishStep = t.finishStep.setEnv e.advance := by
  have hhalted : (t.setEnv e).halted = t.halted := rfl
  simp only [State.finishStep, State.updateTimers, State.input_setEnv, he, hhalted]
  split
  · rfl
  · split <;> rfl

/-- A step commutes with a change of the inputs that keeps its tick and what its instruction reads. -/
theorem step_setEnv_of_reads {s t : State} {e : Environment} (htick : e.current.tick = s.input.tick)
    (hreads : ∀ i, decode s.fetchedWord = .instr i → ReadInputsAgree i e.current s.input)
    (h : step s = .next t) : step (s.setEnv e) = .next (t.setEnv e.advance) := by
  obtain ⟨hh, rfl⟩ | ⟨hh, hp, rfl⟩ | ⟨hh, hp, hd, rfl⟩ | ⟨i, u, hh, hp, hd, hu, rfl⟩ := step_cases h
  · exact step_of_halted hh
  · rw [← Bool.not_eq_true, State.fetchable_iff] at hp
    exact step_of_unfetchable (s := s.setEnv e) hh (Nat.lt_of_not_le hp)
  · exact step_of_unknown (s := s.setEnv e) hh ((State.fetchable_iff s).1 hp) hd
  · have hexec : exec i (s.setEnv e).beginStep = .next (u.setEnv e) :=
      exec_setEnv_of_reads (s := s.beginStep) (hreads i hd) hu
    have hinput : u.input = s.input := exec_beginStep_input hu
    rw [step_of_instr (s := s.setEnv e) hh ((State.fetchable_iff s).1 hp) hd, hexec, finishResult,
      finishStep_setEnv_of_tick (by rw [hinput, htick])]

/-- Settles O13: the second run is the first with another input in front, and a step commutes with that. -/
theorem keysAndRandReachOnlyTheirInstructions : Obligations.KeysAndRandReachOnlyTheirInstructions := by
  intro s t t' inp inp' htick hkeys hrand h h'
  have hreads : ∀ i, decode s.fetchedWord = .instr i → ReadInputsAgree i inp' inp := by
    intro i hd
    cases i with
    | skp x => exact (hkeys.resolve_right fun hne => (hne x).1 hd).symm
    | sknp x => exact (hkeys.resolve_right fun hne => (hne x).2.1 hd).symm
    | ldKey x => exact (hkeys.resolve_right fun hne => (hne x).2.2 hd).symm
    | rnd x nn => exact (hrand.resolve_right fun hne => hne x nn hd).symm
    | _ => trivial
  have hstep := step_setEnv_of_reads (s := s.withInput inp) (e := (s.withInput inp').env) htick.symm hreads h
  rw [show (s.withInput inp).setEnv (s.withInput inp').env = s.withInput inp' from rfl, h'] at hstep
  cases hstep
  rfl

end Sys2Proof.Machine
end

section
/-! PROOFS of the family 41_flow.md: the jumps, the call and the return, the four skips of V, and PC after every
instruction. -/

namespace Sys2Proof.Machine

/-! ### The words of the flow instructions -/

/-- The word of an instruction decodes to it; every instruction is well-formed. -/
theorem decode_encode (i : Instr) : decode (encode i) = .instr i :=
  decodeOfEncodeIsTheInstruction i (wf_all i)

/-! ### The jumps (R101, R107) -/

/-- Settles O32: one write of PC. -/
theorem jumpSetsPc : Obligations.JumpSetsPc :=
  fun nnn s => ⟨decode_encode (.jp nnn), _, rfl, zextAddr_toNat nnn, frame_setPc s _⟩

/-- The largest NNN and the largest byte add up to 0x10FE, so the sum does not wrap. -/
theorem toNat_zextAddr_add_zextByte (nnn : Addr12) (b : Byte) :
    (zextAddr nnn + zextByte b).toNat = nnn.toNat + b.toNat := by
  have hnnn := nnn.isLt
  have hb := b.isLt
  rw [BitVec.toNat_add, zextAddr_toNat, zextByte_toNat]
  omega

/-- Settles O36: one write of PC, with a sum that does not wrap. -/
theorem jumpWithOffsetAddsV0 : Obligations.JumpWithOffsetAddsV0 :=
  fun nnn s => ⟨decode_encode (.jpV0 nnn), _, rfl, toNat_zextAddr_add_zextByte nnn _, frame_setPc s _⟩

/-! ### The skips (R103 to R106) -/

theorem skipIf_pc (s : State) {c : Bool} {p : Prop} [Decidable p] (h : c = true ↔ p) :
    (s.skipIf c).pc = if p then s.pc + 2 else s.pc :=
  if_congr h rfl rfl

theorem skipIf_pc_not (s : State) {c : Bool} {p : Prop} [Decidable p] (h : c = true ↔ ¬p) :
    (s.skipIf c).pc = if p then s.pc else s.pc + 2 :=
  (skipIf_pc s h).trans (ite_not ..)

/-- Settles O34: one skip each, by the condition and by its negation. -/
theorem skipOnImmediate : Obligations.SkipOnImmediate :=
  fun x nn s => ⟨decode_encode (.seImm x nn), decode_encode (.sneImm x nn),
    ⟨_, rfl, skipIf_pc s decide_eq_true_iff, frame_setPc s _⟩,
    ⟨_, rfl, skipIf_pc_not s decide_eq_true_iff, frame_setPc s _⟩⟩

/-- Settles O35: one skip each, by the condition and by its negation. -/
theorem skipOnRegister : Obligations.SkipOnRegister :=
  fun x y s => ⟨decode_encode (.seReg x y), decode_encode (.sneReg x y),
    ⟨_, rfl, skipIf_pc s decide_eq_true_iff, frame_setPc s _⟩,
    ⟨_, rfl, skipIf_pc_not s decide_eq_true_iff, frame_setPc s _⟩⟩

/-! ### The return and the call (R100, R102) -/

theorem exists_pop_of_sp_ne_zero {s : State} (h : s.sp.val ≠ 0) : ∃ a t, s.pop = some (a, t) := by
  cases hp : s.pop with
  | none => exact absurd (congrArg Fin.val ((State.pop_eq_none_iff s).1 hp)) h
  | some p => exact ⟨p.1, p.2, rfl⟩

theorem exists_push_of_sp_ne_sixteen {s : State} (h : s.sp.val ≠ 16) (a : Word) : ∃ t, s.push a = some t := by
  cases hp : s.push a with
  | none => exact absurd (congrArg Fin.val ((State.push_eq_none_iff s a).1 hp)) h
  | some t => exact ⟨t, rfl⟩

theorem exec_ret_of_pop {s t : State} {a : Word} (h : s.pop = some (a, t)) :
    exec .ret s = .next (t.setPc a) := by
  rw [exec, execRet, h]

theorem exec_ret_of_empty {s : State} (h : s.sp.val = 0) :
    exec .ret s = .next (s.raiseFault .stackUnderflow 0) := by
  rw [exec, execRet, (State.pop_eq_none_iff s).2 (Fin.ext h)]

theorem exec_call_of_push {s t : State} (nnn : Addr12) (h : s.push s.pc = some t) :
    exec (.call nnn) s = .next (t.setPc (zextAddr nnn)) := by
  rw [exec, execCall, h]

theorem exec_call_of_full {s : State} (nnn : Addr12) (h : s.sp.val = 16) :
    exec (.call nnn) s = .next (s.raiseFault .stackOverflow 0) := by
  rw [exec, execCall, (State.push_eq_none_iff s s.pc).2 (Fin.ext h)]

/-- Settles O31: the pop of an entry in use and a jump to it, or the fault entry. -/
theorem retPopsThePc : Obligations.RetPopsThePc := by
  refine ⟨by decide, fun s => ⟨fun h => ?_, fun h => ?_⟩⟩
  · obtain ⟨a, t, hp⟩ := exists_pop_of_sp_ne_zero h
    obtain ⟨hsp, -, htop⟩ := State.pop_spec s hp
    exact ⟨_, exec_ret_of_pop hp, Nat.eq_sub_of_add_eq hsp, fun k hk => htop k (by omega), frame_pop hp⟩
  · exact ⟨_, exec_ret_of_empty h, State.raiseFault_spec s _ _⟩

/-- Settles O33: the push of PC and a jump, or the fault entry. -/
theorem callPushesThePc : Obligations.CallPushesThePc := by
  refine fun nnn s => ⟨decode_encode (.call nnn), fun h => ?_, fun h => ?_⟩
  · obtain ⟨t, hp⟩ := exists_push_of_sp_ne_sixteen (Nat.ne_of_lt h) s.pc
    obtain ⟨hsp, -, hget⟩ := State.push_spec s hp
    exact ⟨_, exec_call_of_push nnn hp, zextAddr_toNat nnn, hsp, hget, frame_push hp⟩
  · exact ⟨_, exec_call_of_full nnn h, State.raiseFault_spec s _ _⟩

/-! ### PC after every instruction (R108) -/

theorem expectedFault_beginStep (i : Instr) (s : State) : expectedFault i s.beginStep = expectedFault i s := by
  cases i <;> rfl

/-- An instruction that does not write PC leaves it where the step advanced it. -/
theorem expectedPc_of_pc_not_written {i : Instr} (s : State) (h : .pc ∉ writtenComponents i) :
    expectedPc i s = s.pc + 2 := by
  cases i with
  | ret | jp | call | jpV0 | seImm | sneImm | seReg | sneReg | skp | sknp | ldKey => simp [writtenComponents] at h
  | _ => rfl

theorem exec_beginStep_pc_of_not_written {i : Instr} {s u : State} (h : exec i s.beginStep = .next u)
    (hf : expectedFault i s = none) (hi : .pc ∉ writtenComponents i) : u.pc = expectedPc i s := by
  obtain ⟨-, -, hcomps⟩ := exec_frame h ((expectedFault_beginStep i s).trans hf)
  exact (hcomps .pc hi).trans (expectedPc_of_pc_not_written s hi).symm

/-- A skip of a step that began at `s.pc`: to the instruction after the next one. -/
theorem beginStep_skipIf_pc (s : State) {c : Bool} {p : Prop} [Decidable p] (h : c = true ↔ p) :
    (s.beginStep.skipIf c).pc = if p then s.pc + 4 else s.pc + 2 := by
  rw [skipIf_pc _ h, State.beginStep_pc, BitVec.add_assoc]
  rfl

/-- FX0A stalls exactly when no key is pressed. -/
theorem lowestKey_eq_none_iff_keys (inp : StepInput) : lowestKey inp = none ↔ inp.keys = 0 := by
  rw [lowestKey_eq_none_iff]
  refine ⟨fun h => BitVec.eq_of_getLsbD_eq fun k hk => ?_, fun h k _ => ?_⟩
  · exact (h k hk).trans BitVec.getLsbD_zero.symm
  · rw [keyPressed, h]
    exact BitVec.getLsbD_zero

theorem not_keyPressed_iff {inp : StepInput} {k : Nat} :
    (!keyPressed inp k) = true ↔ ¬inp.keys.getLsbD k = true := by
  rw [keyPressed, Bool.not_eq_true', Bool.not_eq_true]

/-- PC after the execute phase of a step that began in `s` and raises no fault. -/
theorem exec_beginStep_pc {i : Instr} {s u : State} (h : exec i s.beginStep = .next u)
    (hf : expectedFault i s = none) : u.pc = expectedPc i s := by
  have of_exec : ∀ {v : State}, exec i s.beginStep = .next v → v.pc = expectedPc i s → u.pc = expectedPc i s :=
    exec_elim (P := fun w => w.pc = expectedPc i s) h
  cases i with
  | ret =>
    have hsp : s.sp.val ≠ 0 := by simpa [expectedFault] using hf
    obtain ⟨a, t, hp⟩ := exists_pop_of_sp_ne_zero (s := s.beginStep) hsp
    obtain ⟨-, -, htop⟩ := State.pop_spec _ hp
    have hk : s.sp.val - 1 < 16 := by omega
    refine of_exec (exec_ret_of_pop hp) ?_
    rw [State.setPc_pc, htop ⟨s.sp.val - 1, hk⟩ (Nat.sub_add_cancel (Nat.pos_of_ne_zero hsp))]
    simp [expectedPc, Vector.get_eq_getElem, hk]
  | call nnn =>
    have hsp : s.sp.val ≠ 16 := by simpa [expectedFault] using hf
    obtain ⟨t, hp⟩ := exists_push_of_sp_ne_sixteen (s := s.beginStep) hsp s.beginStep.pc
    exact of_exec (exec_call_of_push nnn hp) rfl
  | jp | jpV0 => exact of_exec rfl rfl
  | seImm | sneImm | seReg | sneReg => exact of_exec rfl (beginStep_skipIf_pc s decide_eq_true_iff)
  | skp x =>
    have hx : (s.readV x).toNat ≤ 15 := by simpa [expectedFault, Nat.lt_succ_iff] using hf
    refine of_exec rfl ?_
    rw [State.guardKey_index s.beginStep _ hx]
    exact beginStep_skipIf_pc s Iff.rfl
  | sknp x =>
    have hx : (s.readV x).toNat ≤ 15 := by simpa [expectedFault, Nat.lt_succ_iff] using hf
    refine of_exec rfl ?_
    rw [State.guardKey_index s.beginStep _ hx]
    exact (beginStep_skipIf_pc s not_keyPressed_iff).trans (ite_not ..)
  | ldKey x =>
    refine of_exec rfl ?_
    cases hk : lowestKey s.beginStep.input with
    | none =>
      have hkeys : s.input.keys = 0 := (lowestKey_eq_none_iff_keys _).1 hk
      rw [expectedPc, if_pos hkeys]
      exact BitVec.add_sub_cancel s.pc 2
    | some k =>
      have hkeys : s.input.keys ≠ 0 := fun h0 => by
        rw [State.input_beginStep, (lowestKey_eq_none_iff_keys _).2 h0] at hk
        cases hk
      rw [expectedPc, if_neg hkeys]
      rfl
  | _ => exact exec_beginStep_pc_of_not_written h hf (by simp [writtenComponents])

/-- Settles O24: the timer update leaves PC where the execute phase put it. -/
theorem pcAfterEveryInstruction : Obligations.PcAfterEveryInstruction := by
  intro s t i hrun hpc hd hf h
  obtain ⟨u, hu⟩ := exec_answers_next i s.beginStep
  rw [step_of_instr hrun hpc hd, hu, finishResult] at h
  cases h
  rw [State.finishStep_pc, exec_beginStep_pc hu hf]

end Sys2Proof.Machine
end

section
/-! PROOFS of the family 42_alu.md: loads, sums, differences, logic and shifts of V, with the flag each of them
leaves in VF. -/

namespace Sys2Proof.Machine

/-! ### One register is written (R121 to R126, R132) -/

/-- Settles O37: one write of V[X]. -/
theorem loadImmediate : Obligations.LoadImmediate :=
  fun x nn s => ⟨decode_encode (.ldImm x nn), _, rfl, State.readV_setV_same s x nn, frame_setV s x nn⟩

/-- Settles O38: one write of V[X], with the sum of two bytes. -/
theorem addImmediateWrapsWithoutFlag : Obligations.AddImmediateWrapsWithoutFlag := by
  refine fun x nn s => ⟨decode_encode (.addImm x nn), _, rfl, ?_, frame_setV s x _⟩
  rw [State.readV_setV_same]
  exact BitVec.toNat_add (s.readV x) nn

/-- Settles O39: one write of V[X] each. -/
theorem copyAndLogic : Obligations.CopyAndLogic :=
  fun x y s => ⟨decode_encode (.ldReg x y), decode_encode (.or x y), decode_encode (.and x y),
    decode_encode (.xor x y),
    ⟨_, rfl, State.readV_setV_same s x _, frame_setV s x _⟩,
    ⟨_, rfl, State.readV_setV_same s x _, frame_setV s x _⟩,
    ⟨_, rfl, State.readV_setV_same s x _, frame_setV s x _⟩,
    ⟨_, rfl, State.readV_setV_same s x _, frame_setV s x _⟩⟩

/-- Settles O45: one write of V[X], from the step's random byte. -/
theorem randomMaskedByImmediate : Obligations.RandomMaskedByImmediate := by
  rintro x nn rand s rfl
  exact ⟨decode_encode (.rnd x nn), _, rfl, State.readV_setV_same s x _, frame_setV s x _⟩

/-! ### The destination, then the flag (R127, R128, R130) -/

theorem State.readV_setV_setFlag (s : State) {x : Reg} (hx : x ≠ regVF) (b f : Byte) :
    ((s.setV x b).setFlag f).readV x = b := by
  rw [setFlag_eq, readV_setV_ne _ _ _ _ hx, readV_setV_same]

theorem State.readV_regVF_setFlag (s : State) (f : Byte) : (s.setFlag f).readV regVF = f :=
  readV_setV_same s regVF f

/-- The wrapped sum is below the first operand exactly when there is a carry. -/
theorem carryFlag_add (a b : Byte) : carryFlag (a + b) a = if 256 ≤ a.toNat + b.toNat then 1 else 0 := by
  have hwrap : a + b < a ↔ 256 ≤ a.toNat + b.toNat := by
    rw [BitVec.lt_def, BitVec.toNat_add]
    omega
  exact if_congr (decide_eq_true_iff.trans hwrap) rfl rfl

/-- The wrapped difference is above the minuend exactly when there is a borrow. -/
theorem noBorrowFlag_sub (m b : Byte) : noBorrowFlag (m - b) m = if b.toNat ≤ m.toNat then 1 else 0 := by
  have hwrap : ¬m - b > m ↔ b.toNat ≤ m.toNat := by
    rw [gt_iff_lt, BitVec.lt_def, BitVec.toNat_sub]
    omega
  refine if_congr (Iff.trans ?_ hwrap) rfl rfl
  rw [Bool.not_eq_true', decide_eq_false_iff_not]

/-- The wrapped difference in the order R128 and R130 write it. -/
theorem toNat_sub_byte (m b : Byte) : (m - b).toNat = (m.toNat + 256 - b.toNat) % 256 := by
  rw [BitVec.toNat_sub]
  omega

/-- Settles O40: the sum goes to V[X], then the carry to VF. -/
theorem addRegisterSetsCarry : Obligations.AddRegisterSetsCarry := by
  refine fun x y s => ⟨decode_encode (.addReg x y), _, rfl, fun hx => ?_, ?_, frame_setV_setFlag s x _ _⟩
  · rw [State.readV_setV_setFlag s hx]
    exact BitVec.toNat_add (s.readV x) (s.readV y)
  · rw [State.readV_regVF_setFlag, carryFlag_add]

/-- What 8XY5 and 8XY7 do, for minuend `m` and subtrahend `b`: the difference, then the no-borrow flag. -/
theorem setV_sub_setFlag_spec (s : State) (x : Reg) {m b : Byte} {t : State}
    (ht : t = (s.setV x (m - b)).setFlag (noBorrowFlag (m - b) m)) :
    (x ≠ regVF → (t.readV x).toNat = (m.toNat + 256 - b.toNat) % 256) ∧
    t.readV regVF = (if b.toNat ≤ m.toNat then 1 else 0) ∧ Frame [x, regVF] 0 0 [] s t := by
  subst ht
  refine ⟨fun hx => ?_, ?_, frame_setV_setFlag s x _ _⟩
  · rw [State.readV_setV_setFlag s hx, toNat_sub_byte]
  · rw [State.readV_regVF_setFlag, noBorrowFlag_sub]

/-- Settles O41: V[Y] is subtracted from V[X]. -/
theorem subtractSetsNoBorrow : Obligations.SubtractSetsNoBorrow :=
  fun x y s => ⟨decode_encode (.sub x y), _, rfl, setV_sub_setFlag_spec s x rfl⟩

/-- Settles O43: V[X] is subtracted from V[Y]. -/
theorem reverseSubtractSetsNoBorrow : Obligations.ReverseSubtractSetsNoBorrow :=
  fun x y s => ⟨decode_encode (.subn x y), _, rfl, setV_sub_setFlag_spec s x rfl⟩

/-! ### The flag, then the destination, read again (R129, R131) -/

/-- With OP = 8 and N = 6 or N = E the Y field is ignored (R63). -/
theorem decode_wordXY_shift (x y : Reg) :
    decode (wordXY 0x8006 x y) = .instr (.shr x) ∧ decode (wordXY 0x800E x y) = .instr (.shl x) := by
  constructor <;>
  · rw [decode, opField_wordXY]
    change decodeFamily8 _ = _
    rw [decodeFamily8, nField_wordXY, xField_wordXY] <;> rfl

theorem State.readV_setFlag_ne (s : State) {x : Reg} (hx : x ≠ regVF) (f : Byte) :
    (s.setFlag f).readV x = s.readV x :=
  readV_setV_ne s regVF x f hx

theorem State.readV_regVF_setFlag_setV (s : State) {x : Reg} (hx : x ≠ regVF) (b f : Byte) :
    ((s.setFlag f).setV x b).readV regVF = f := by
  rw [readV_setV_ne _ _ _ _ hx.symm, readV_regVF_setFlag]

theorem toNat_shiftedOutLow (a : Byte) : (shiftedOutLow a).toNat = a.toNat % 2 := by
  rw [shiftedOutLow, BitVec.toNat_and]
  exact Nat.and_two_pow_sub_one_eq_mod a.toNat 1

theorem toNat_shiftedOutHigh (a : Byte) : (shiftedOutHigh a).toNat = a.toNat / 128 := by
  rw [shiftedOutHigh, BitVec.toNat_ushiftRight, Nat.shiftRight_eq_div_pow]

theorem toNat_shiftRight_one (a : Byte) : (a >>> 1).toNat = a.toNat / 2 := by
  rw [BitVec.toNat_ushiftRight, Nat.shiftRight_eq_div_pow]

theorem toNat_shiftLeft_one (a : Byte) : (a <<< 1).toNat = 2 * a.toNat % 256 := by
  rw [BitVec.toNat_shiftLeft, Nat.shiftLeft_eq, Nat.mul_comm]

/-- The low bit, shifted right in its turn, is gone: the X = 0xF form of R129. -/
theorem shiftedOutLow_shiftRight (a : Byte) : shiftedOutLow a >>> 1 = 0 := by
  apply BitVec.eq_of_toNat_eq
  rw [toNat_shiftRight_one, toNat_shiftedOutLow]
  exact Nat.div_eq_of_lt (Nat.mod_lt _ Nat.two_pos)

/-- The high bit, shifted left in its turn, is worth 2: the X = 0xF form of R131. -/
theorem shiftedOutHigh_shiftLeft (a : Byte) : shiftedOutHigh a <<< 1 = if 128 ≤ a.toNat then 2 else 0 := by
  have ha := a.isLt
  apply BitVec.eq_of_toNat_eq
  rw [toNat_shiftLeft_one, toNat_shiftedOutHigh, apply_ite BitVec.toNat]
  change 2 * (a.toNat / 128) % 256 = if 128 ≤ a.toNat then 2 else 0
  split <;> omega

/-- Settles O42: with X ≠ 0xF the flag does not reach the operand; with X = 0xF the flag is the operand. -/
theorem shiftRightByOne : Obligations.ShiftRightByOne := by
  refine fun x y s => ⟨(decode_wordXY_shift x y).1, _, rfl, fun hx => ⟨?_, ?_⟩, ?_, frame_setFlag_setV s x _ _⟩
  · rw [State.readV_setV_same, State.readV_setFlag_ne s hx, toNat_shiftRight_one]
  · rw [State.readV_regVF_setFlag_setV s hx, toNat_shiftedOutLow]
  · rintro rfl
    rw [State.readV_setV_same, State.readV_regVF_setFlag, shiftedOutLow_shiftRight]

/-- Settles O44: with X ≠ 0xF the flag does not reach the operand; with X = 0xF the flag is the operand. -/
theorem shiftLeftByOne : Obligations.ShiftLeftByOne := by
  refine fun x y s => ⟨(decode_wordXY_shift x y).2, _, rfl, fun hx => ⟨?_, ?_⟩, ?_, frame_setFlag_setV s x _ _⟩
  · rw [State.readV_setV_same, State.readV_setFlag_ne s hx, toNat_shiftLeft_one]
  · rw [State.readV_regVF_setFlag_setV s hx, toNat_shiftedOutHigh]
  · rintro rfl
    rw [State.readV_setV_same, State.readV_regVF_setFlag, shiftedOutHigh_shiftLeft]

end Sys2Proof.Machine
end

section
/-! PROOFS of the family 43_index_memory.md: the three writes of I, and the transfers between V and memory at I with
their range fault. -/

namespace Sys2Proof.Machine

/-! ### I is written (R140 to R142) -/

/-- Settles O46: one write of I. -/
theorem loadAddressRegister : Obligations.LoadAddressRegister :=
  fun nnn s => ⟨decode_encode (.ldI nnn), _, rfl, zextAddr_toNat nnn, frame_setI s _⟩

/-- Settles O47: one write of I, with the sum of two words. -/
theorem addToAddressRegister : Obligations.AddToAddressRegister := by
  refine fun x s => ⟨decode_encode (.addI x), _, rfl, ?_, frame_setI s _⟩
  rw [State.setI_i, BitVec.toNat_add, zextByte_toNat]

/-- Settles O48: one write of I. -/
theorem addressOfGlyph : Obligations.AddressOfGlyph :=
  fun x s => ⟨decode_encode (.ldFont x), _, rfl, glyphAddress_toNat _, frame_setI s _⟩

/-! ### The range check at I (20_memory.md R44) -/

/-- A range at I that reaches above 0xFFF: whatever the access would do, the fault entry stands in its place. -/
theorem State.guardRange_execFault (s t : State) {n : Nat} (hn : n ≠ 0) (hbeyond : 0x1000 < s.i.toNat + n) :
    ExecFault s .addressOutOfRange (missingAddress s.i) (s.guardRange n t) := by
  rw [guardRange_faults s t hn hbeyond]
  exact raiseFault_spec s _ _

/-! ### The transfers (R143 to R145) -/

/-- FX33 with its three bytes in memory raises no fault. -/
theorem exec_bcd_of_fits {s : State} {x : Reg} (hfit : s.i.toNat + 2 ≤ 0xFFF) :
    exec (.bcd x) s = .next (s.setMem (s.mem.writeBytes s.i.toNat (bcdDigits (s.readV x)))) :=
  congrArg Host.Outcome.next (State.guardRange_admitted s _ (.inr (by omega)))

/-- FX65 with its whole range in memory raises no fault. -/
theorem exec_load_of_fits {s : State} {x : Reg} (hfit : s.i.toNat + x.val ≤ 0xFFF) :
    exec (.load x) s = .next (s.loadRegs x) :=
  congrArg Host.Outcome.next (State.guardRange_admitted s _ (.inr (by omega)))

/-- The hundreds, tens and units of a byte are read back at `a`, `a + 1` and `a + 2`. -/
theorem toNat_read_writeBytes_bcdDigits {m : Memory} (hm : m.wf = true) (b : Byte) {a : Nat} (hfit : a + 2 ≤ 0xFFF) :
    ((m.writeBytes a (bcdDigits b)).read a).toNat = b.toNat / 100 ∧
    ((m.writeBytes a (bcdDigits b)).read (a + 1)).toNat = b.toNat / 10 % 10 ∧
    ((m.writeBytes a (bcdDigits b)).read (a + 2)).toNat = b.toNat % 10 := by
  have hdigit (k : Nat) (hk : k < 3) : ((m.writeBytes a (bcdDigits b)).read (a + k)).toNat =
      [b.toNat / 100, b.toNat / 10 % 10, b.toNat % 10][k] := by
    simp only [← bcdDigits_toNat, List.getElem_map]
    exact congrArg BitVec.toNat (Memory.read_writeBytes_inside (bcdDigits b) a k hk hm (Nat.succ_le_succ hfit))
  exact ⟨hdigit 0 (by decide), hdigit 1 (by decide), hdigit 2 (by decide)⟩

/-- Settles O49: the three digits are stored at I, or the fault entry. -/
theorem storeDecimalDigits : Obligations.StoreDecimalDigits :=
  fun x s => ⟨decode_encode (.bcd x),
    fun hfit => ⟨_, exec_bcd_of_fits hfit, fun hm => toNat_read_writeBytes_bcdDigits hm (s.readV x) hfit,
      frame_writeBytes s _ (bcdDigits (s.readV x))⟩,
    fun hbeyond => ⟨_, rfl, s.guardRange_execFault _ (by decide) (by omega)⟩⟩

/-- Settles O50: the register block is stored at I, or the fault entry. -/
theorem storeRegisterBlock : Obligations.StoreRegisterBlock := by
  refine fun x s => ⟨decode_encode (.store x), fun hfit => ?_, fun hbeyond => ?_⟩
  · have hframe := frame_writeBytes s s.i.toNat (s.regBlock x)
    rw [length_regBlock] at hframe
    exact ⟨_, exec_store_of_fits hfit, fun hm k hk => read_writeBytes_regBlock hm s hfit hk, hframe⟩
  · exact ⟨_, rfl, s.guardRange_execFault _ (Nat.succ_ne_zero _) (by omega)⟩

/-- Settles O51: the registers are loaded from I, or the fault entry. -/
theorem loadRegisterBlock : Obligations.LoadRegisterBlock :=
  fun x s => ⟨decode_encode (.load x),
    fun hfit => ⟨_, exec_load_of_fits hfit, fun k hk => by rw [State.readV_loadRegs, if_pos hk], frame_loadRegs s x⟩,
    fun hbeyond => ⟨_, rfl, s.guardRange_execFault _ (Nat.succ_ne_zero _) (by omega)⟩⟩

end Sys2Proof.Machine
end

section
/-! PROOFS of the family 44_display.md: the cleared screen, and the sprite draw with its clipping, its collision flag
and its range fault. -/

namespace Sys2Proof.Machine

/-! ### The clear (R161) -/

/-- Settles O52: FB and STATUS are written, and no pixel of the cleared framebuffer is On. -/
theorem clearScreen : Obligations.ClearScreen :=
  ⟨decode_encode .cls,
    fun s => ⟨_, rfl, fun x y _ _ => Framebuffer.pixel_allOff x y, rfl, frame_cls s _ _⟩⟩

/-! ### A completed draw (R162) -/

/-- What DXYN leaves where its range is admitted. -/
def State.drawn (s : State) (x y : Reg) (n : Count4) : State :=
  let d := Framebuffer.drawSprite s.fb (s.originX x) (s.originY y) (s.spriteRows n)
  ((s.setFlag (collisionFlag d.2)).setFb d.1).setStatus .runningDraw

theorem exec_drw_of_fits {s : State} {x y : Reg} {n : Count4} (hfit : n.val = 0 ∨ s.i.toNat + n.val ≤ 0x1000) :
    exec (.drw x y n) s = .next (s.drawn x y n) :=
  congrArg Host.Outcome.next (State.guardRange_admitted s _ hfit)

/-- A meaning has one answer, here the completed draw. -/
theorem eq_drawn_of_exec_drw {s t : State} {x y : Reg} {n : Count4} (hfit : n.val = 0 ∨ s.i.toNat + n.val ≤ 0x1000)
    (h : exec (.drw x y n) s = .next t) : t = s.drawn x y n :=
  exec_elim (P := (· = s.drawn x y n)) h (exec_drw_of_fits hfit) rfl

/-- The set bits of the rows at I are those R160 describes byte by byte. -/
theorem spriteCovers_spriteRows_iff (s : State) (x0 y0 : Nat) (n : Count4) (px py : Nat) :
    Framebuffer.spriteCovers (s.spriteRows n) x0 y0 px py = true ↔ SpriteSets s x0 y0 n px py := by
  rw [Framebuffer.spriteCovers_iff, State.spriteRows, Memory.length_readBytes]
  have hrow : ∀ r < n.val, (s.mem.readBytes s.i.toNat n.val).getD r 0 = s.mem.read (s.i.toNat + r) :=
    Memory.getD_readBytes s.mem n.val s.i.toNat
  constructor <;> rintro ⟨r, c, hr, hc, hx, hy, hbit⟩ <;> refine ⟨r, c, hr, hc, hx, hy, ?_⟩
  · rwa [← hrow r hr]
  · rwa [hrow r hr]

namespace State

variable (s : State) (x y : Reg) (n : Count4)

/-- A draw changes exactly the pixels of the grid on which a set sprite bit lands. -/
theorem drawn_pixel_ne_iff (px py : Nat) :
    (s.drawn x y n).fb.pixel px py ≠ s.fb.pixel px py ↔
      px ≤ 63 ∧ py ≤ 31 ∧ SpriteSets s ((s.readV x).toNat % 64) ((s.readV y).toNat % 32) n px py := by
  have hpixel : (s.drawn x y n).fb.pixel px py =
      (s.fb.pixel px py ^^ (decide (px ≤ 63 ∧ py ≤ 31) &&
        Framebuffer.spriteCovers (s.spriteRows n) (s.originX x) (s.originY y) px py)) :=
    Framebuffer.drawSprite_pixel _ _ _ _ _ _
  have hflip : ∀ a b : Bool, (a ^^ b) ≠ a ↔ b = true := by decide
  rw [hpixel, hflip, Bool.and_eq_true, decide_eq_true_eq, and_assoc, spriteCovers_spriteRows_iff, originX, originY]

theorem drawn_flag : (s.drawn x y n).readV regVF =
    flagByte (Framebuffer.drawSprite s.fb (s.originX x) (s.originY y) (s.spriteRows n)).2 :=
  readV_regVF_setFlag s _

theorem drawn_flag_eq_zero_or_one : (s.drawn x y n).readV regVF = 0 ∨ (s.drawn x y n).readV regVF = 1 := by
  rw [drawn_flag, flagByte]
  split
  · exact .inr rfl
  · exact .inl rfl

/-- The collision: some set sprite bit lands on a pixel that was On. -/
theorem drawn_flag_eq_one_iff : (s.drawn x y n).readV regVF = 1 ↔ ∃ px py : Nat, px ≤ 63 ∧ py ≤ 31 ∧
    SpriteSets s ((s.readV x).toNat % 64) ((s.readV y).toNat % 32) n px py ∧ s.fb.pixel px py = true := by
  have hflag : ∀ c, flagByte c = 1 ↔ c = true := by decide
  rw [drawn_flag, hflag, Framebuffer.drawSprite_hit]
  simp only [spriteCovers_spriteRows_iff, originX, originY]

theorem drawn_flag_eq_zero (h : (s.drawn x y n).readV regVF ≠ 1) : (s.drawn x y n).readV regVF = 0 :=
  (drawn_flag_eq_zero_or_one s x y n).resolve_right h

end State

/-- Settles O53: each pixel and the flag after a completed draw, or the fault entry. -/
theorem drawSprite : Obligations.DrawSprite := by
  rintro x y n s x0 y0 rfl rfl
  refine ⟨decode_encode (.drw x y n), fun hfit => ?_, fun hn hbeyond =>
    ⟨_, rfl, s.guardRange_execFault _ (Nat.ne_of_gt hn) (by omega)⟩⟩
  refine ⟨_, exec_drw_of_fits (by omega), fun px py hx hy => ⟨fun hset => ?_, fun hset => ?_⟩,
    (s.drawn_flag_eq_one_iff x y n).2, fun hnone => ?_, rfl, frame_draw s _ _ _⟩
  · exact Bool.eq_not_of_ne ((s.drawn_pixel_ne_iff x y n px py).2 ⟨hx, hy, hset⟩)
  · by_contra hne
    obtain ⟨-, -, hcovers⟩ := (s.drawn_pixel_ne_iff x y n px py).1 hne
    exact hset hcovers
  · exact s.drawn_flag_eq_zero x y n (mt (s.drawn_flag_eq_one_iff x y n).1 hnone)

/-! ### What a draw does to the screen (R163) -/

/-- A set of pixels that is a set of sprite bits moved to the origin (x0, y0), none of them off the screen, has as many
elements. -/
theorem card_eq_of_translate {pixels : Finset (Fin 64 × Fin 32)} {bits : Finset (Fin 16 × Fin 8)} {x0 y0 : Nat}
    (hscreen : ∀ q ∈ bits, x0 + q.2.val < 64 ∧ y0 + q.1.val < 32)
    (hmem : ∀ p, p ∈ pixels ↔ ∃ q ∈ bits, p.1.val = x0 + q.2.val ∧ p.2.val = y0 + q.1.val) :
    pixels.card = bits.card := by
  refine (Finset.card_bij (fun q hq => (⟨x0 + q.2.val, (hscreen q hq).1⟩, ⟨y0 + q.1.val, (hscreen q hq).2⟩))
    (fun q hq => (hmem _).2 ⟨q, hq, rfl, rfl⟩) (fun q _ q' _ hpos => ?_) (fun p hp => ?_)).symm
  · obtain ⟨hcol, hrow⟩ := Prod.ext_iff.1 hpos
    exact Prod.ext (Fin.ext (Nat.add_left_cancel (Fin.mk.inj hrow))) (Fin.ext (Nat.add_left_cancel (Fin.mk.inj hcol)))
  · obtain ⟨q, hq, hx, hy⟩ := (hmem p).1 hp
    exact ⟨q, hq, Prod.ext (Fin.ext hx.symm) (Fin.ext hy.symm)⟩

/-- Settles O28: the changed pixels are the set bits on the screen, moved to the origin of the sprite. -/
theorem drawChangesOnePixelPerSetBit : Obligations.DrawChangesOnePixelPerSetBit := by
  intro x y n s t hfit h
  obtain rfl := eq_drawn_of_exec_drw hfit h
  refine card_eq_of_translate (x0 := (s.readV x).toNat % 64) (y0 := (s.readV y).toNat % 32) (fun q hq => ?_) fun p => ?_
  · obtain ⟨-, hy, hx, -⟩ := (Finset.mem_filter_univ _).1 hq
    exact ⟨Nat.lt_succ_of_le hx, Nat.lt_succ_of_le hy⟩
  · rw [Finset.mem_filter_univ, State.drawn_pixel_ne_iff]
    constructor
    · rintro ⟨hx, hy, r, c, hr, hc, hpx, hpy, hbit⟩
      refine ⟨(⟨r, hr.trans n.isLt⟩, ⟨c, Nat.lt_succ_of_le hc⟩), (Finset.mem_filter_univ _).2 ?_, hpx, hpy⟩
      exact ⟨hr, hpy ▸ hy, hpx ▸ hx, hbit⟩
    · rintro ⟨⟨r, c⟩, hq, hpx, hpy⟩
      obtain ⟨hr, hy, hx, hbit⟩ := (Finset.mem_filter_univ _).1 hq
      exact ⟨hpx ▸ hx, hpy ▸ hy, r, c, hr, Nat.le_of_lt_succ c.isLt, hpx, hpy, hbit⟩

/-- A pixel that the second draw flips exactly if the first one did is what it was. -/
theorem eq_of_flips {a b c : Bool} (h : c ≠ b ↔ b ≠ a) : c = a := by
  revert a b c; decide

/-- A pixel that was flipped is On exactly if it was Off. -/
theorem eq_true_iff_of_flip {a b : Bool} (h : b ≠ a) : b = true ↔ a = false := by
  revert a b; decide

/-- Settles O27: the second draw flips the pixels the first one did, and each of them is On between the two exactly if
it was Off before. -/
theorem drawingTwiceRestoresTheScreen : Obligations.DrawingTwiceRestoresTheScreen := by
  intro x y n s t u hfit ht hu
  obtain rfl := eq_drawn_of_exec_drw hfit ht
  obtain rfl := eq_drawn_of_exec_drw (s := { s.drawn x y n with v := s.v }) hfit hu
  have hfirst := s.drawn_pixel_ne_iff x y n
  have hsecond := State.drawn_pixel_ne_iff { s.drawn x y n with v := s.v } x y n
  refine ⟨Framebuffer.eq_of_pixels fun px py _ _ => eq_of_flips ((hsecond px py).trans (hfirst px py).symm),
    (State.drawn_flag_eq_one_iff _ x y n).trans ?_⟩
  refine exists₂_congr fun px py => and_congr_right fun hx => and_congr_right fun hy => and_congr_right fun hset => ?_
  exact eq_true_iff_of_flip ((hfirst px py).2 ⟨hx, hy, hset⟩)

/-- Settles O29: VF is a flag, the changed pixels lie in the rectangle, and no pixel of the cleared screen is On. -/
theorem drawFlagAndRectangle : Obligations.DrawFlagAndRectangle := by
  intro x y n s t hfit h
  obtain rfl := eq_drawn_of_exec_drw hfit h
  refine ⟨s.drawn_flag_eq_zero_or_one x y n, fun px py => ?_, fun c hcls => ?_⟩
  · by_cases hsame : (s.drawn x y n).fb.pixel px py = s.fb.pixel px py
    · exact .inr hsame
    · obtain ⟨hx, hy, r, c, hr, hc, rfl, rfl, -⟩ := (s.drawn_pixel_ne_iff x y n px py).1 hsame
      exact .inl (by omega)
  · have hoff : s.fb = Framebuffer.allOff := exec_elim (P := fun u => u.fb = Framebuffer.allOff) hcls rfl rfl
    refine s.drawn_flag_eq_zero x y n fun hone => ?_
    obtain ⟨px, py, -, -, -, hon⟩ := (s.drawn_flag_eq_one_iff x y n).1 hone
    simp [hoff] at hon

end Sys2Proof.Machine
end

section
/-! PROOFS of the family 45_keys_timers.md: the skips on a key, the wait for a key, and the timers as the execute phase
and the whole step leave them. -/

namespace Sys2Proof.Machine

/-! ### The skips on a key (R180, R181, R186) -/

/-- A key index of 16 or more: whatever the skip would do, the fault entry stands in its place. -/
theorem State.guardKey_execFault (s t : State) {x : Reg} (h : 15 < (s.readV x).toNat) :
    ExecFault s .keyIndexOutOfRange (zextByte (s.readV x)) (s.guardKey x t) := by
  rw [guardKey_faults s t h]
  exact raiseFault_spec s _ _

/-- EX9E with a key index in V[X] raises no fault. -/
theorem exec_skp_of_index {s : State} {x : Reg} (h : (s.readV x).toNat ≤ 15) :
    exec (.skp x) s = .next (s.skipIf (keyPressed s.input (s.readV x).toNat)) :=
  congrArg Host.Outcome.next (State.guardKey_index s _ h)

/-- EXA1 with a key index in V[X] raises no fault. -/
theorem exec_sknp_of_index {s : State} {x : Reg} (h : (s.readV x).toNat ≤ 15) :
    exec (.sknp x) s = .next (s.skipIf (!keyPressed s.input (s.readV x).toNat)) :=
  congrArg Host.Outcome.next (State.guardKey_index s _ h)

/-- Settles O54: one skip each, by the key and by its negation, or the fault entry. -/
theorem skipOnKey : Obligations.SkipOnKey :=
  fun x s => ⟨decode_encode (.skp x), decode_encode (.sknp x),
    fun hindex =>
      ⟨⟨_, exec_skp_of_index hindex, skipIf_pc s Iff.rfl, frame_setPc s _⟩,
        ⟨_, exec_sknp_of_index hindex, skipIf_pc_not s not_keyPressed_iff, frame_setPc s _⟩⟩,
    fun hbeyond =>
      ⟨⟨_, rfl, s.guardKey_execFault _ hbeyond⟩, ⟨_, rfl, s.guardKey_execFault _ hbeyond⟩⟩⟩

/-! ### The end of a step whose execute phase is known (R88, R92) -/

theorem eq_finishStep_of_step {i : Instr} {s t u : State} (hrun : s.halted = false) (hpc : s.pc.toNat ≤ 0xFFE)
    (hd : decode (s.mem.readWord s.pc.toNat) = .instr i) (h : step s = .next t)
    (hu : exec i s.beginStep = .next u) : t = u.finishStep := by
  rw [step_of_instr hrun hpc hd, hu, finishResult] at h
  cases h
  rfl

theorem State.finishStep_dt_toNat {s : State} (hrun : s.halted = false) :
    s.finishStep.dt.toNat = s.dt.toNat - (if s.input.tick then 1 else 0) := by
  obtain ⟨-, hdt, -⟩ := updateTimers_spec s
  rw [finishStep_of_running s hrun, consumeInput_dt, hdt]

theorem State.finishStep_st_toNat {s : State} (hrun : s.halted = false) :
    s.finishStep.st.toNat = s.st.toNat - (if s.input.tick then 1 else 0) := by
  obtain ⟨-, -, hst⟩ := updateTimers_spec s
  rw [finishStep_of_running s hrun, consumeInput_st, hst]

/-- The end of a step keeps V. -/
@[simp] theorem State.readV_finishStep (s : State) (r : Reg) : s.finishStep.readV r = s.readV r := by
  rw [readV, finishStep_v, readV]

/-- `beep` sounds while ST is not 0 (10_state.md R20). -/
theorem State.beep_iff (s : State) : s.outputs.beep = true ↔ 0 < s.st.toNat := by
  rw [outputs, decide_eq_true_iff, Nat.pos_iff_ne_zero, ← BitVec.toNat_ne_iff_ne]
  rfl

/-! ### The wait for a key (R182) -/

theorem exec_ldKey_of_pressed {s : State} {x : Reg} {k : Nat} (h : lowestKey s.input = some k) :
    exec (.ldKey x) s = .next (s.setV x (BitVec.ofNat 8 k)) := by
  rw [exec, execLdKey, h]

theorem exec_ldKey_of_no_key {s : State} {x : Reg} (h : lowestKey s.input = none) :
    exec (.ldKey x) s = .next (s.setPc (s.pc - 2)) := by
  rw [exec, execLdKey, h]

/-- Settles O55: the least pressed key is stored; with no key pressed PC goes back, and the end of the step is that of
any other. -/
theorem waitForKey : Obligations.WaitForKey := by
  refine fun x s => ⟨decode_encode (.ldKey x), fun k hk hpressed hleast => ?_, fun hnone => ?_,
    fun t hrun hpc hd hnone h => ?_⟩
  · have hkey : lowestKey s.input = some k := (lowestKey_eq_some_iff _ k).2 ⟨hk, hpressed, hleast⟩
    refine ⟨_, exec_ldKey_of_pressed hkey, ?_, frame_setV s x _⟩
    rw [State.readV_setV_same, BitVec.toNat_ofNat, Nat.mod_eq_of_lt (by omega)]
  · exact ⟨_, exec_ldKey_of_no_key ((lowestKey_eq_none_iff _).2 hnone), rfl, frame_setPc s _⟩
  · have hkey : lowestKey s.beginStep.input = none := (lowestKey_eq_none_iff _).2 hnone
    obtain rfl := eq_finishStep_of_step hrun hpc hd h (exec_ldKey_of_no_key hkey)
    refine ⟨?_, State.finishStep_v _, State.finishStep_status _, State.finishStep_dt_toNat hrun,
      State.finishStep_st_toNat hrun⟩
    rw [State.finishStep_pc, State.setPc_pc, State.beginStep_pc, BitVec.add_sub_cancel]

/-! ### The timers (R183 to R185) -/

/-- Settles O56: the register is written in execute, from DT as the step found it; the tick comes after. -/
theorem readDelayTimer : Obligations.ReadDelayTimer := by
  refine fun x s => ⟨decode_encode (.ldFromDt x), ⟨_, rfl, s.readV_setV_same x _, frame_setV s x _⟩,
    fun t hrun hpc hd h => ?_⟩
  obtain rfl := eq_finishStep_of_step hrun hpc hd h rfl
  refine ⟨?_, State.finishStep_dt_toNat hrun⟩
  rw [State.readV_finishStep, State.readV_setV_same, State.beginStep_dt]

/-- Settles O57: the tick at the end of the step applies to the value execute wrote. -/
theorem setDelayTimer : Obligations.SetDelayTimer := by
  refine fun x s => ⟨decode_encode (.ldDt x), ⟨_, rfl, rfl, frame_setDt s _⟩, fun t hrun hpc hd h => ?_⟩
  obtain rfl := eq_finishStep_of_step hrun hpc hd h rfl
  exact State.finishStep_dt_toNat hrun

/-- Settles O58: the tick at the end of the step applies to the value execute wrote, and `beep` reads what it left. -/
theorem setSoundTimerAndBeep : Obligations.SetSoundTimerAndBeep := by
  refine fun x s => ⟨decode_encode (.ldSt x), ⟨_, rfl, rfl, frame_setSt s _⟩, fun t hrun hpc hd h => ?_⟩
  have hst : t.st.toNat = (s.readV x).toNat - (if s.input.tick then 1 else 0) := by
    rw [eq_finishStep_of_step hrun hpc hd h rfl]
    exact State.finishStep_st_toNat hrun
  refine ⟨hst, (State.beep_iff t).trans ?_⟩
  rw [hst]
  exact Nat.sub_pos_iff_lt

end Sys2Proof.Machine
end

section
/-! PROOFS of the family 60_exceptions.md: the precise fault entry, the fault record of a step, how far a step takes
the timers down, and what its tick reaches. -/

namespace Sys2Proof.Machine

/-! ### The three outcomes of a step (60_exceptions.md R204) -/

/-- A step finds the core halted, is one fault entry of the state it began in, or completes an instruction. -/
theorem step_halted_faults_or_completes {s t : State} (h : step s = .next t) :
    (s.halted = true ∧ t = s.consumeInput) ∨
    (s.halted = false ∧ ∃ c w a, c ≠ .none ∧ t = (s.enterFault c w a).consumeInput) ∨
    (s.halted = false ∧ ∃ i u, decode s.fetchedWord = .instr i ∧ exec i s.beginStep = .next u ∧ u.halted = false ∧
      t = u.finishStep) := by
  obtain ⟨hh, rfl⟩ | ⟨hrun, -, rfl⟩ | ⟨hrun, -, -, rfl⟩ | ⟨i, u, hrun, -, hd, hu, rfl⟩ := step_cases h
  · exact .inl ⟨hh, rfl⟩
  · exact .inr (.inl ⟨hrun, _, _, _, by decide, rfl⟩)
  · exact .inr (.inl ⟨hrun, _, _, _, by decide, rfl⟩)
  · rcases exec_fault_cases hu with hf | ⟨c, a, hc, rfl⟩
    · have hurun : u.halted = false :=
        (State.not_halted_iff u).2 ((congrArg FaultRecord.cause hf).trans ((State.not_halted_iff s).1 hrun))
      exact .inr (.inr ⟨hrun, i, u, hd, hu, hurun, rfl⟩)
    · rw [State.finishStep_of_halted _ (State.halted_raiseFault _ hc a), raiseFault_beginStep]
      exact .inr (.inl ⟨hrun, c, _, a, hc, rfl⟩)

/-- Settles O8: of the three outcomes only the fault entry takes a core that runs to a halted one. -/
theorem faultEntryIsPrecise : Obligations.FaultEntryIsPrecise := by
  intro s t hrun h ht
  obtain ⟨hh, -⟩ | ⟨-, c, w, a, -, rfl⟩ | ⟨-, i, u, -, -, hurun, rfl⟩ := step_halted_faults_or_completes h
  · rw [hrun] at hh
    cases hh
  · exact ⟨State.enterFault_spec s c w a, rfl⟩
  · rw [State.finishStep_halted, hurun] at ht
    cases ht

/-! ### The record of the fault (R201, R203, R206) -/

theorem expectedRecord_of_unfetchable {s : State} (hp : 0xFFF ≤ s.pc.toNat) :
    expectedRecord s = some { cause := .addressOutOfRange, pc := s.pc, instr := 0, addr := missingAddress s.pc } :=
  if_pos hp

theorem expectedRecord_of_unknown {s : State} (hp : s.pc.toNat ≤ 0xFFE) (hd : decode s.fetchedWord = .unknown) :
    expectedRecord s = some { cause := .unknownOpcode, pc := s.pc, instr := s.fetchedWord, addr := 0 } := by
  rw [State.fetchedWord] at hd ⊢
  rw [expectedRecord, if_neg (by omega), hd]

theorem expectedRecord_of_instr {s : State} {i : Instr} (hp : s.pc.toNat ≤ 0xFFE)
    (hd : decode s.fetchedWord = .instr i) :
    expectedRecord s = (expectedFault i s).map fun f => (s.enterFault f.1 s.fetchedWord f.2).fault := by
  rw [State.fetchedWord] at hd
  rw [expectedRecord, if_neg (by omega), hd]
  rfl

/-- The execute phase of a step leaves in FAULT the record its instruction is expected to raise, if any. -/
theorem exec_beginStep_fault {i : Instr} {s u : State} (hu : exec i s.beginStep = .next u) :
    u.fault = ((expectedFault i s).map fun f => (s.enterFault f.1 s.fetchedWord f.2).fault).getD s.fault := by
  have hraise := exec_raises hu
  rw [RaisesExpected, expectedFault_beginStep] at hraise
  cases hf : expectedFault i s with
  | some f =>
    rw [hf] at hraise
    rw [hraise, raiseFault_beginStep, Option.map_some, Option.getD_some]
  | none =>
    rw [hf] at hraise
    rw [hraise, State.beginStep_fault, Option.map_none, Option.getD_none]

theorem step_fault {s t : State} (hrun : s.halted = false) (h : step s = .next t) :
    t.fault = (expectedRecord s).getD s.fault := by
  obtain ⟨hh, -⟩ | ⟨-, hp, rfl⟩ | ⟨-, hp, hd, rfl⟩ | ⟨i, u, -, hp, hd, hu, rfl⟩ := step_cases h
  · rw [hrun] at hh
    cases hh
  · rw [← Bool.not_eq_true, State.fetchable_iff] at hp
    rw [expectedRecord_of_unfetchable (Nat.lt_of_not_le hp)]
    rfl
  · rw [expectedRecord_of_unknown ((State.fetchable_iff s).1 hp) hd]
    rfl
  · rw [State.finishStep_fault, exec_beginStep_fault hu, expectedRecord_of_instr ((State.fetchable_iff s).1 hp) hd]

/-- Settles O9: the fetch, decode and execute phases each leave the record the table has for them. -/
theorem faultRaisedExactlyAsTabulated : Obligations.FaultRaisedExactlyAsTabulated := by
  intro s t hrun h
  rw [step_fault hrun h]
  cases expectedRecord s with
  | some f => rfl
  | none => rfl

/-! ### How far a step takes a timer down (R213) -/

/-- From `b` to `b'` a timer falls by at most 1, and stays where there is no tick. -/
def TimerFalls (tick : Bool) (b b' : Byte) : Prop :=
  b.toNat - 1 ≤ b'.toNat ∧ b'.toNat ≤ b.toNat ∧ (tick = false → b' = b)

theorem timerFalls_refl (tick : Bool) (b : Byte) : TimerFalls tick b b := ⟨Nat.sub_le _ _, le_rfl, fun _ => rfl⟩

/-- One decrement of phase 6, or none. -/
theorem timerFalls_of_toNat {tick : Bool} {b b' : Byte} (h : b'.toNat = b.toNat - (if tick then 1 else 0)) :
    TimerFalls tick b b' := by
  cases tick with
  | true => exact ⟨h.ge, h.le.trans (Nat.sub_le _ _), nofun⟩
  | false =>
    obtain rfl : b' = b := BitVec.eq_of_toNat_eq h
    exact timerFalls_refl false b'

/-- DT is written by FX15 alone (10_state.md R19). -/
theorem dt_mem_writtenComponents_iff (i : Instr) : .dt ∈ writtenComponents i ↔ ∃ x, i = .ldDt x := by
  cases i <;> simp [writtenComponents]

/-- ST is written by FX18 alone (10_state.md R20). -/
theorem st_mem_writtenComponents_iff (i : Instr) : .st ∈ writtenComponents i ↔ ∃ x, i = .ldSt x := by
  cases i <;> simp [writtenComponents]

/-- An execute phase that completes keeps every component its instruction does not write. -/
theorem exec_same_of_not_written {i : Instr} {s u : State} (hu : exec i s = .next u) (hurun : u.halted = false)
    {c : Component} (hc : c ∉ writtenComponents i) : c.same s u := by
  obtain ⟨-, -, hcomps⟩ := exec_frame hu (expectedFault_eq_none hu hurun)
  exact hcomps c hc

/-- Settles O11: a halted or faulting step keeps both timers, and one that completes ticks what execute left. -/
theorem timersFallByAtMostOnePerStep : Obligations.TimersFallByAtMostOnePerStep := by
  intro s t h
  change (_ → TimerFalls s.input.tick s.dt t.dt) ∧ (_ → TimerFalls s.input.tick s.st t.st)
  obtain ⟨-, rfl⟩ | ⟨-, c, w, a, -, rfl⟩ | ⟨-, i, u, hd, hu, hurun, rfl⟩ := step_halted_faults_or_completes h
  · exact ⟨fun _ => timerFalls_refl _ _, fun _ => timerFalls_refl _ _⟩
  · exact ⟨fun _ => timerFalls_refl _ _, fun _ => timerFalls_refl _ _⟩
  · refine ⟨fun hne => timerFalls_of_toNat ?_, fun hne => timerFalls_of_toNat ?_⟩
    · have hdt : u.dt = s.dt := exec_same_of_not_written hu hurun (c := .dt) fun hmem => by
        obtain ⟨x, rfl⟩ := (dt_mem_writtenComponents_iff i).1 hmem
        exact hne x hd
      rw [State.finishStep_dt_toNat hurun, hdt, exec_beginStep_input hu]
    · have hst : u.st = s.st := exec_same_of_not_written hu hurun (c := .st) fun hmem => by
        obtain ⟨x, rfl⟩ := (st_mem_writtenComponents_iff i).1 hmem
        exact hne x hd
      rw [State.finishStep_st_toNat hurun, hst, exec_beginStep_input hu]

/-! ### What the tick reaches (R210) -/

/-- The state with given timers and inputs to come: what is left to compare is what the tick may not reach. -/
def State.setTimersEnv (s : State) (d b : Byte) (e : Environment) : State := ((s.setDt d).setSt b).setEnv e

theorem State.setTimersEnv_finishStep (s : State) (d b : Byte) (e : Environment) :
    s.finishStep.setTimersEnv d b e = s.setTimersEnv d b e := by
  rw [finishStep_frame s]
  rfl

/-- Inputs with the same keys and the same random byte agree on what any execute phase reads. -/
theorem readInputsAgree_of_keys_rand (i : Instr) {a b : StepInput} (hkeys : a.keys = b.keys) (hrand : a.rand = b.rand) :
    ReadInputsAgree i a b := by
  cases i with
  | skp | sknp | ldKey => exact hkeys
  | rnd => exact hrand
  | _ => trivial

/-- With the same keys and random byte, a step from other inputs to come ends alike but for the timers and `env`. -/
theorem step_setEnv_setTimersEnv {s t : State} {e : Environment} (hkeys : e.current.keys = s.input.keys)
    (hrand : e.current.rand = s.input.rand) (h : step s = .next t) :
    ∃ t', step (s.setEnv e) = .next t' ∧ ∀ d b e', t'.setTimersEnv d b e' = t.setTimersEnv d b e' := by
  obtain ⟨hh, rfl⟩ | ⟨hh, hp, rfl⟩ | ⟨hh, hp, hd, rfl⟩ | ⟨i, u, hh, hp, hd, hu, rfl⟩ := step_cases h
  · exact ⟨_, step_of_halted (s := s.setEnv e) hh, fun _ _ _ => rfl⟩
  · rw [← Bool.not_eq_true, State.fetchable_iff] at hp
    exact ⟨_, step_of_unfetchable (s := s.setEnv e) hh (Nat.lt_of_not_le hp), fun _ _ _ => rfl⟩
  · exact ⟨_, step_of_unknown (s := s.setEnv e) hh ((State.fetchable_iff s).1 hp) hd, fun _ _ _ => rfl⟩
  · have hexec : exec i (s.setEnv e).beginStep = .next (u.setEnv e) :=
      exec_setEnv_of_reads (s := s.beginStep) (readInputsAgree_of_keys_rand i hkeys hrand) hu
    refine ⟨(u.setEnv e).finishStep, ?_, fun d b e' => ?_⟩
    · rw [step_of_instr (s := s.setEnv e) hh ((State.fetchable_iff s).1 hp) hd, hexec, finishResult]
    · rw [State.setTimersEnv_finishStep, State.setTimersEnv_finishStep]
      rfl

/-- Settles O14: the execute phase reads no tick, and the end of a step writes the timers and `env` alone. -/
theorem tickReachesOnlyTheTimers : Obligations.TickReachesOnlyTheTimers := by
  intro s t t' inp inp' hkeys hrand h h'
  obtain ⟨u, hu, hsame⟩ :=
    step_setEnv_setTimersEnv (s := s.withInput inp) (e := (s.withInput inp').env) hkeys.symm hrand.symm h
  rw [show (s.withInput inp).setEnv (s.withInput inp').env = s.withInput inp' from rfl, h'] at hu
  cases hu
  exact (hsame s.dt s.st s.env).symm

end Sys2Proof.Machine
end

section
/-! PROOFS of the family 70_reset_and_hazards.md: what the first fetch after reset reads, and the reset move. -/

namespace Sys2Proof.Machine

/-! ### The first fetch after reset (70_reset_and_hazards.md R231) -/

/-- From PROG_BASE on memory holds PROGRAM, then the 0x00 an absent byte reads as. -/
theorem Memory.read_loadImage_program (fontset : Vector Byte 80) {program : List Byte}
    (hfit : programFits program = true) (k : Nat) :
    (loadImage fontset program).read (0x200 + k) = program.getD k 0 := by
  rw [read_loadImage fontset hfit, if_neg (by omega), Nat.add_sub_cancel_left]
  split
  · rfl
  · next hout => rw [List.getD_eq_default _ _ (by omega)]

/-- PC is PROG_BASE after reset, so the first fetch reads PROGRAM's first two bytes. -/
theorem State.fetchedWord_resetWith (fontset : Vector Byte 80) {program : List Byte}
    (hfit : programFits program = true) :
    (resetWith fontset program).fetchedWord = wordOfBytes (program.getD 0 0) (program.getD 1 0) :=
  congrArg₂ wordOfBytes (Memory.read_loadImage_program fontset hfit 0) (Memory.read_loadImage_program fontset hfit 1)

/-- Settles O23: the load image under the first fetch; loading writes MEM alone, so the rest is as in `State.reset`. -/
theorem firstFetchAfterResetIsAt0x200 : Obligations.FirstFetchAfterResetIsAt0x200 :=
  fun fontset _ hfit => ⟨rfl, rfl, State.fetchedWord_resetWith fontset hfit, rfl⟩

/-! ### The reset move (R230, R232) -/

theorem applyMove_reset_of_fits (fontset : Vector Byte 80) {program : List Byte} (s : State)
    (hfit : programFits program = true) :
    applyMove (.reset fontset program) s = .next { State.resetWith fontset program with env := s.env } :=
  if_pos hfit

theorem applyMove_reset_of_not_fits (fontset : Vector Byte 80) {program : List Byte} (s : State)
    (hlong : ¬programFits program = true) :
    applyMove (.reset fontset program) s = .refused .programTooLarge :=
  if_neg hlong

/-- Settles O22: the move's two branches, with the bound on PROGRAM's length that R232 writes. -/
theorem resetMoveLoadsOrRefuses : Obligations.ResetMoveLoadsOrRefuses := by
  intro fontset program s
  constructor
  · intro hshort
    exact applyMove_reset_of_fits fontset s ((programFits_iff program).2 hshort)
  · intro hlong
    exact applyMove_reset_of_not_fits fontset s (mt (programFits_iff program).1 (Nat.not_le_of_lt hlong))

end Sys2Proof.Machine
end
